-- ==== Sys2Proof/Word.lean ====
section
/-! DEFINITION. The words of the machine: bytes, command words, digits, indices and mantissas (00_scope.md R9, R10). -/

namespace Sys2Proof

/-- One byte of the input buffer (10_state.md R25). -/
abbrev Byte := BitVec 8

/-- One 16-bit command word (30_encoding.md R60). -/
abbrev CommandWord := BitVec 16

/-- The 65-bit word of the register read port (20_memory.md R43). -/
abbrev PortWord := BitVec 65

/-- A decimal digit: "an integer in 0..9" (00_scope.md R10). A nibble 10..15 is no digit and cannot be written
down as one (R84; DESIGN CHOICE, log 2, safe). -/
abbrev Digit := Fin 10

/-- The index of a decimal register, d0 to d15 (10_state.md R20, 30_encoding.md R62). -/
abbrev RegIndex := Fin 16

/-- The index of a byte of IBUF (20_memory.md R40). -/
abbrev ByteIndex := Fin 16

/-- Fourteen digits, index 0 the most significant (00_scope.md R10). -/
abbrev Mantissa := Vector Digit 14

end Sys2Proof
end

