-- ==== Sys2Proof/Syntax.lean ====
section
/-! DEFINITION. The five commands (30_encoding.md R63, R68), one constructor per row of the opcode table. -/

namespace Sys2Proof

/-- A command of the datapath. In format RRR `rs1` is the first operand x and `rs2` the second operand y (R61, R62). -/
inductive Instr where
  /-- `PARSE d<rd>`: the record in IBUF, as a Register, to `rd` (R110). -/
  | parse (rd : RegIndex)
  /-- `ADD d<rd>, d<rs1>, d<rs2>` (R140). -/
  | add (rd rs1 rs2 : RegIndex)
  /-- `SUB d<rd>, d<rs1>, d<rs2>` (R141). -/
  | sub (rd rs1 rs2 : RegIndex)
  /-- `MUL d<rd>, d<rs1>, d<rs2>` (R170). -/
  | mul (rd rs1 rs2 : RegIndex)
  /-- `DIV d<rd>, d<rs1>, d<rs2>` (R190). -/
  | div (rd rs1 rs2 : RegIndex)
deriving DecidableEq, Repr

/-- The destination register of a command (R60). -/
def Instr.dest : Instr → RegIndex
  | .parse rd => rd
  | .add rd _ _ => rd
  | .sub rd _ _ => rd
  | .mul rd _ _ => rd
  | .div rd _ _ => rd

end Sys2Proof
end

