-- ==== Sys2Proof/WellFormed.lean ====
section
/-! DEFINITION. Well-formedness: of an instruction, and of a command word (30_encoding.md R62, R66). -/

namespace Sys2Proof

/-- R62: "Every value 0..15 names a register." The operands are typed as 4-bit indices, so no ill-formed
instruction can be written down: the check is kept as the rule states it, and every instruction passes it. -/
def Instr.wellFormed : Instr → Bool
  | .parse rd => decide (rd.val ≤ 15)
  | .add rd rs1 rs2 => decide (rd.val ≤ 15 ∧ rs1.val ≤ 15 ∧ rs2.val ≤ 15)
  | .sub rd rs1 rs2 => decide (rd.val ≤ 15 ∧ rs1.val ≤ 15 ∧ rs2.val ≤ 15)
  | .mul rd rs1 rs2 => decide (rd.val ≤ 15 ∧ rs1.val ≤ 15 ∧ rs2.val ≤ 15)
  | .div rd rs1 rs2 => decide (rd.val ≤ 15 ∧ rs1.val ≤ 15 ∧ rs2.val ≤ 15)

/-- R66: a word is reserved iff `op` is 0x0 or any of 0x6..0xF, or `op` is 0x1 and `c[7:0]` is not 0x00. -/
def reservedWord (c : CommandWord) : Bool :=
  let op := (c.extractLsb' 12 4).toNat
  decide (op = 0x0) || decide (0x6 ≤ op) || (decide (op = 0x1) && decide (c.extractLsb' 0 8 ≠ 0x00#8))

end Sys2Proof
end

