-- ==== Sys2Proof/Decode.lean ====
section
/-! DEFINITION. Decoding a command word (30_encoding.md R60, R63, R66, R67), total on all words, and the encoder
(R68) after it. -/

namespace Sys2Proof

/-- Why a command word is reserved (R66). -/
inductive Rejection where
  /-- `op` is 0x0 or 0x6..0xF. -/
  | reservedOpcode (op : BitVec 4)
  /-- `op` is 0x1 (PARSE) and the source fields `c[7:0]` are not zero. -/
  | parseSources (low : Byte)
deriving DecidableEq, Repr

/-- `op = c[15:12]` (R60). -/
def opField (c : CommandWord) : BitVec 4 := c.extractLsb' 12 4

/-- `rd = c[11:8]` (R60). -/
def rdField (c : CommandWord) : RegIndex := (c.extractLsb' 8 4).toFin

/-- `rs1 = c[7:4]` (R60). -/
def rs1Field (c : CommandWord) : RegIndex := (c.extractLsb' 4 4).toFin

/-- `rs2 = c[3:0]` (R60). -/
def rs2Field (c : CommandWord) : RegIndex := (c.extractLsb' 0 4).toFin

/-- The decode procedure of R67. A reserved word is rejected by name; what it then does (ILL) is the step's. -/
def decode (c : CommandWord) : Except Rejection Instr :=
  if opField c = 0x1#4 then
    if c.extractLsb' 0 8 = 0x00#8 then .ok (.parse (rdField c)) else .error (.parseSources (c.extractLsb' 0 8))
  else if opField c = 0x2#4 then .ok (.add (rdField c) (rs1Field c) (rs2Field c))
  else if opField c = 0x3#4 then .ok (.sub (rdField c) (rs1Field c) (rs2Field c))
  else if opField c = 0x4#4 then .ok (.mul (rdField c) (rs1Field c) (rs2Field c))
  else if opField c = 0x5#4 then .ok (.div (rdField c) (rs1Field c) (rs2Field c))
  else .error (.reservedOpcode (opField c))

/-- A register index as its 4-bit field (R60, R62). -/
def indexField (i : RegIndex) : BitVec 4 := BitVec.ofFin i

/-- `c = (op << 12) | (rd << 8) | (rs1 << 4) | rs2` (R68). -/
def assemble (op : BitVec 4) (rd rs1 rs2 : RegIndex) : CommandWord :=
  op.setWidth 16 <<< 12 ||| (indexField rd).setWidth 16 <<< 8 ||| (indexField rs1).setWidth 16 <<< 4 |||
    (indexField rs2).setWidth 16

/-- The command word of an instruction (R63, R68). -/
def encode : Instr → CommandWord
  | .parse rd => assemble 0x1#4 rd 0 0
  | .add rd rs1 rs2 => assemble 0x2#4 rd rs1 rs2
  | .sub rd rs1 rs2 => assemble 0x3#4 rd rs1 rs2
  | .mul rd rs1 rs2 => assemble 0x4#4 rd rs1 rs2
  | .div rd rs1 rs2 => assemble 0x5#4 rd rs1 rs2

/-- The command word whose bits the opcode table numbers as `w`: a word is handed over whole, so it has no byte
order (20_memory.md R44), and every bit above `nbits` is 0. -/
def tableWord (nbits w : Nat) : CommandWord := BitVec.ofNat 16 (w % 2 ^ nbits)

/-- The instruction the decoder reads from a table word; `none` where it rejects it. -/
def decodeTableWord (nbits w : Nat) : Option Instr :=
  match decode (tableWord nbits w) with
  | .ok i => some i
  | .error _ => none

end Sys2Proof
end

