-- ==== Sys2Proof/Config.lean ====
section
/-! DEFINITION. The block's parameters (00_scope.md R9): BIAS, ALIGN_LIMIT, and LAT as a free value. The other fixed ones
stand in the types: M = 14 in `Mantissa`, NREG = 16 in `RegIndex`, IN_LEN = 16 in `ByteIndex`, CMD_W = 16 in `CommandWord`,
EW = 8 in `Register.exp`; W = 16 is the length of `load` and `clear`, EXP_DZ = 0 stands in `divZeroSentinel`, and
EXP_MAG_MAX = 99 is what two digits can say. -/

namespace Sys2Proof

/-- `BIAS`: the exponent bias (R9). -/
abbrev Config.bias : Int := 128

/-- `ALIGN_LIMIT`: the largest exponent difference ADD and SUB still align (R9, R147). -/
abbrev Config.alignLimit : Nat := 14

/-- `LAT - 1` for the n-th command issued: a free value. The spec leaves LAT open, an integer of at least 1 that
may differ per command and per operand (R9, R237); LAT is `extraCycles n + 1`, so it is at least 1 whatever
this constant is. DESIGN CHOICE, log 4, safe. -/
opaque Config.extraCycles : Nat → Nat

end Sys2Proof
end

