-- ==== Sys2Proof/Machine/Exponent.lean ====
section
/-! DEFINITION. Exponent arithmetic: the exact `E*`, what is stored of it, and when it overflows (40_primitives.md R93
to R95). -/

namespace Sys2Proof.Machine

/-- A stored exponent, taken as a plain integer 0..255; an exponent 0 enters as 0 (R93). -/
def expInt (e : BitVec 8) : Int := (e.toNat : Int)

/-- `exp_add(ex, ey) = (ex - 128) + (ey - 128) + 128` (R93). -/
def expAdd (ex ey : BitVec 8) : Int := (expInt ex - Config.bias) + (expInt ey - Config.bias) + Config.bias

/-- `exp_sub(ex, ey) = (ex - 128) - (ey - 128) + 128` (R93). -/
def expSub (ex ey : BitVec 8) : Int := (expInt ex - Config.bias) - (expInt ey - Config.bias) + Config.bias

/-- `exp_inc(E*)` (R93). -/
def expInc (e : Int) : Int := e + 1

/-- `exp_dec(E*)` (R93). -/
def expDec (e : Int) : Int := e - 1

/-- `exp_diff(ex, ey) = |ex - ey|` on the stored values; it never wraps (R95). -/
def expDiff (ex ey : BitVec 8) : Nat := (expInt ex - expInt ey).natAbs

/-- The stored exponent, `E* mod 256` (R94). -/
def storeExp (e : Int) : BitVec 8 := BitVec.ofNat 8 (e % 256).toNat

/-- OV: the final `E*` lies outside 1..255 (R94). -/
def expOverflow (e : Int) : Bool := decide (e < 1) || decide (255 < e)

end Sys2Proof.Machine
end

