-- ==== Sys2Proof/Machine/Digits.lean ====
section
/-! DEFINITION. The digit primitives (40_primitives.md R80 to R83). -/

namespace Sys2Proof.Machine

/-- `digit_add_carry(d1, d2, cin) = (sum, cout)` (R80): the binary sum, decimal-adjusted by 6 where it exceeds 9. -/
def digitAddCarry (d1 d2 : Digit) (cin : Bool) : Digit × Bool :=
  let s := d1.val + d2.val + cin.toNat
  if h : s > 9 then (⟨(s + 6) % 16, by have := cin.toNat_le; omega⟩, true) else (⟨s % 16, by omega⟩, false)

/-- `digit_sub_borrow(d1, d2, bin) = (diff, bout)` (R81): 10 is added where the difference is negative. -/
def digitSubBorrow (d1 d2 : Digit) (bin : Bool) : Digit × Bool :=
  let t : Int := d1.val - d2.val - bin.toNat
  if h : t < 0 then (⟨(t + 10).toNat, by omega⟩, true) else (⟨t.toNat, by omega⟩, false)

/-- The binary-to-decimal conversion of a product (R82): tens in the high nibble, units in the low nibble. -/
def packDecimal (p : Nat) : BitVec 8 := (BitVec.ofNat 8 (p / 10) <<< 4) ||| BitVec.ofNat 8 (p % 10)

/-- R83's per-nibble correction: 3 is added where the nibble is at least 5. -/
def addThree (n : BitVec 4) : BitVec 4 := if n ≥ 5#4 then n + 3#4 else n

/-- One round of R83's loop: correct the three nibbles, then shift in the next bit of `p`. -/
def doubleDabbleRound (bcd : BitVec 12) (bit : Bool) : BitVec 12 :=
  let corrected := addThree (bcd.extractLsb' 8 4) ++ addThree (bcd.extractLsb' 4 4) ++ addThree (bcd.extractLsb' 0 4)
  (corrected <<< 1) ||| (BitVec.ofBool bit).setWidth 12

/-- R83: the double-dabble conversion of an 8-bit binary number, most significant bit first. -/
def doubleDabble (p : BitVec 8) : BitVec 8 :=
  (([7, 6, 5, 4, 3, 2, 1, 0].foldl (fun bcd k => doubleDabbleRound bcd (p.getLsbD k)) 0#12).extractLsb' 0 8)

/-- `digit_mult(d1, d2)` (R82): the packed BCD byte of the product. -/
def digitMult (d1 d2 : Digit) : BitVec 8 := packDecimal (d1.val * d2.val)

/-- The digit in a BCD nibble. The nibbles of `digitMult` are digits (R82); a nibble 10..15 is never given to it
(R84; log 2). -/
def nibbleDigit (n : BitVec 4) : Digit := Fin.ofNat 10 n.toNat

/-- The BCD nibble of a digit (00_scope.md R10). -/
def digitNibble (d : Digit) : BitVec 4 := BitVec.ofNat 4 d.val

end Sys2Proof.Machine
end

