-- ==== Sys2Proof/Machine/State.lean ====
section
/-! DEFINITION. The state of the block, as plain data, and its reset (10_state.md, 20_memory.md R49, R50). -/

namespace Sys2Proof.Machine

/-- A decimal register `(s, m, e)` (10_state.md R21). -/
structure Register where
  /-- `s`: true is 1, negative. -/
  sign : Bool
  /-- `m[0..13]`, `m[0]` the most significant digit. -/
  mant : Mantissa
  /-- `e`: the exponent, unsigned, biased by 128. -/
  exp : BitVec 8
deriving DecidableEq, Repr

/-- True zero, `(0, 0^14, 128)` (R22). -/
def Register.trueZero : Register := ⟨false, Vector.replicate 14 0, 128#8⟩

/-- The host's operations: the closed set of 20_memory.md R49. -/
inductive HostOp where
  /-- `RESET()` -/
  | reset
  /-- `WRITE_IBUF(k, v)` -/
  | writeIbuf (k : ByteIndex) (v : Byte)
  /-- `READ_IBUF(k)` -/
  | readIbuf (k : ByteIndex)
  /-- `ISSUE(c)` -/
  | issue (c : CommandWord)
  /-- `READ_REG(r)` -/
  | readReg (r : RegIndex)
  /-- `READ_STATUS()` -/
  | readStatus
deriving DecidableEq, Repr

/-- What the host gets back (R49). Only the three reads answer. -/
inductive Reply where
  /-- From `READ_IBUF(k)`. -/
  | ibufByte (k : ByteIndex) (v : Byte)
  /-- From `READ_REG(r)`: the 65-bit word of R43. -/
  | regWord (r : RegIndex) (w : PortWord)
  /-- From `READ_STATUS()`. -/
  | statusByte (v : Byte)
deriving DecidableEq, Repr

/-- A command in progress (R50; 10_state.md R30). -/
structure Running where
  /-- The command word. -/
  word : CommandWord
  /-- The waiting steps left before it completes. -/
  left : Nat
deriving DecidableEq, Repr

/-- The input buffer, as (index, byte) pairs in canonical form: indices strictly rising and below 16, no byte 0x00.
An unlisted byte reads 0x00, its reset value (10_state.md R25, R30; log 1). -/
abbrev Memory := List Host.Cell

/-- The state of the block and, beside it, the host's inputs and outputs (log 3 to 7). -/
structure State where
  /-- `DR[0..15]` (10_state.md R20). -/
  dr : Vector Register 16
  /-- STATUS (R24). -/
  status : BitVec 8
  /-- `IBUF[0..15]` (R25). -/
  ibuf : Memory
  /-- The command in progress, if any (R30, R50). -/
  running : Option Running
  /-- Host operations waiting for the running command, oldest first (20_memory.md R50). -/
  held : List HostOp
  /-- The model's own: the operations the host has yet to perform, in its order (R49, R51; log 5). -/
  script : List HostOp
  /-- The model's own: what the host got back, oldest first (R49; log 7). -/
  replies : List Reply
  /-- The model's own: how many commands have been issued; each draws its LAT with it (R9; log 4). -/
  issued : Nat
deriving DecidableEq, Repr

/-- The machine right after reset (10_state.md R30, 70_reset_and_hazards.md R230). The model's own fields are
empty: nothing is scripted, nothing answered, nothing issued (DESIGN CHOICE, log 4, 5, 7). -/
def State.reset : State where
  dr := Vector.replicate 16 Register.trueZero
  status := 0x00#8
  ibuf := []
  running := none
  held := []
  script := []
  replies := []
  issued := 0

/-- No constructor: the block never traps (60_exceptions.md R210, R219), and every condition it knows is a value in
STATUS or `DR[rd]` (R211). Safe (log 9). -/
inductive Fault where
deriving DecidableEq, Repr

/-- The reasons a step can be refused. -/
inductive Refusal where
  /-- An instruction without a meaning, by its mnemonic. Raised by `exec` alone, and by no arm of it now: every
  command has its meaning. Safe: a run stops rather than goes on wrongly. -/
  | notModelled (mnemonic : String)
deriving DecidableEq, Repr

end Sys2Proof.Machine
end

