-- ==== Sys2Proof/Machine/Flags.lean ====
section
/-! DEFINITION. STATUS (10_state.md R24, 60_exceptions.md R211): its bits, its values, and what an engine answers. -/

namespace Sys2Proof.Machine

/-- STATUS with PE alone (R211). -/
def statusPE : BitVec 8 := 0x04#8

/-- STATUS with INV alone (R211). -/
def statusINV : BitVec 8 := 0x08#8

/-- STATUS with ILL alone (R211). -/
def statusILL : BitVec 8 := 0x10#8

/-- STATUS of a command that wrote its result: `(dz ? 0x01 : 0x00) | (ov ? 0x02 : 0x00)` (R140, R170, R190). -/
def statusOf (dz ov : Bool) : BitVec 8 := (if dz then 0x01#8 else 0x00#8) ||| (if ov then 0x02#8 else 0x00#8)

/-- What a read of STATUS gives: bits 7:5 are hardwired 0 (R24). -/
def readableStatus (v : BitVec 8) : BitVec 8 := v &&& 0x1F#8

/-- STATUS.DZ, bit 0: the divisor was zero. -/
def flagDZ (v : BitVec 8) : Bool := v.getLsbD 0

/-- STATUS.OV, bit 1: the exact exponent of the written result lies outside 1..255. -/
def flagOV (v : BitVec 8) : Bool := v.getLsbD 1

/-- STATUS.PE, bit 2: the input buffer held no well-formed record. -/
def flagPE (v : BitVec 8) : Bool := v.getLsbD 2

/-- STATUS.INV, bit 3: an arithmetic invariant was violated. -/
def flagINV (v : BitVec 8) : Bool := v.getLsbD 3

/-- STATUS.ILL, bit 4: the command word is reserved. -/
def flagILL (v : BitVec 8) : Bool := v.getLsbD 4

/-- What an engine answers: the triple or quadruple of R140, R170 and R190. -/
inductive EngineResult where
  /-- A Register to write, with the flags DZ and OV. -/
  | value (r : Register) (dz ov : Bool)
  /-- `inv = 1`: no register is written. -/
  | inv
deriving DecidableEq, Repr

end Sys2Proof.Machine
end

