-- ==== Sys2Proof/Machine/Memory.lean ====
section
/-! DEFINITION. The input buffer as canonical cells: read, write, and the canonical form (20_memory.md R40; log 1). -/

namespace Sys2Proof.Machine

/-- What an unlisted byte of IBUF reads as: its reset value 0x00 (10_state.md R30). -/
def unlistedByte : Byte := 0x00#8

/-- The byte listed at an address, or the unlisted value. -/
def Memory.read : Memory → Nat → Byte
  | [], _ => unlistedByte
  | (a, v) :: rest, k => if a = k then v else Memory.read rest k

/-- Write a byte, keeping the cells in order and listing none that reads as an unlisted one. -/
def Memory.write : Memory → Nat → Byte → Memory
  | [], k, v => if v = unlistedByte then [] else [(k, v)]
  | (a, w) :: rest, k, v =>
    if k < a then (if v = unlistedByte then (a, w) :: rest else (k, v) :: (a, w) :: rest)
    else if k = a then (if v = unlistedByte then rest else (k, v) :: rest)
    else (a, w) :: Memory.write rest k v

/-- Every cell stands at `low` or above, strictly rising and below 16, and none reads as an unlisted byte. -/
def Memory.wfFrom : Nat → Memory → Bool
  | _, [] => true
  | low, (a, v) :: rest => decide (low ≤ a) && decide (a < 16) && decide (v ≠ unlistedByte) && Memory.wfFrom (a + 1) rest

/-- The canonical form of IBUF. -/
def Memory.wf (m : Memory) : Bool := Memory.wfFrom 0 m

end Sys2Proof.Machine
end

