-- ==== Sys2Proof/Machine/Operands.lean ====
section
/-! DEFINITION. The operand forms of the two formats (30_encoding.md R61, R62). -/

namespace Sys2Proof.Machine

/-- `DR[i]`, the one read of a decimal register (10_state.md R20). No register is hardwired, aliased or banked. -/
def State.readReg (s : State) (i : RegIndex) : Register := s.dr[i]

/-- `IBUF[k]`, the one read of a byte of the input buffer (20_memory.md R40). -/
def State.readByte (s : State) (k : ByteIndex) : Byte := Memory.read s.ibuf k.val

/-- The operands of format RRR: `x` is `DR[rs1]` and `y` is `DR[rs2]`, read before anything is written (R62). -/
def operandsRRR (s : State) (rs1 rs2 : RegIndex) : Register × Register := (s.readReg rs1, s.readReg rs2)

/-- The operand of format R: the 16 bytes `IBUF[0..15]` (R62). -/
def operandsR (s : State) : List Byte := (List.finRange 16).map s.readByte

end Sys2Proof.Machine
end

