-- ==== Sys2Proof/Machine/Ops.lean ====
section
/-! DEFINITION. The named operations over registers, IBUF, STATUS and the host's port.

There is no exception entry or return to share: the block never traps (60_exceptions.md R210, R219, R220). In its
place stand the shared endings of a command, `State.complete` and `State.signalOnly`, which write all of a command's
outcome at once (R215, 20_memory.md R46). -/

namespace Sys2Proof.Machine

/-- `DR[i] <- r`, the one write of a decimal register (10_state.md R20). -/
def State.writeReg (s : State) (i : RegIndex) (r : Register) : State := { s with dr := s.dr.set i.val r i.isLt }

/-- `IBUF[k] <- v`, the one write of a byte of the input buffer (20_memory.md R40). -/
def State.writeByte (s : State) (k : ByteIndex) (v : Byte) : State := { s with ibuf := Memory.write s.ibuf k.val v }

/-- The command ends with its result: all of `DR[rd]` and all of STATUS, together, and no command is in progress
(R215; 20_memory.md R46). -/
def State.complete (s : State) (rd : RegIndex) (r : Register) (st : BitVec 8) : State :=
  { s.writeReg rd r with status := st, running := none }

/-- The command ends with STATUS alone: PE, INV or ILL; no register and no byte of IBUF changes (R215). -/
def State.signalOnly (s : State) (st : BitVec 8) : State := { s with status := st, running := none }

/-- The end of ADD, SUB, MUL and DIV (R140, R141, R170, R190). -/
def State.finish (s : State) (rd : RegIndex) : EngineResult → State
  | .value r dz ov => s.complete rd r (statusOf dz ov)
  | .inv => s.signalOnly statusINV

/-- The packing of 20_memory.md R43: `s` at bit 64, `m[k]` at bits 63-4k..60-4k, `e` at bits 7:0. -/
def Register.pack (r : Register) : PortWord :=
  let digits := r.mant.toList.foldl (fun acc d => acc * 16 + (digitNibble d).toNat) 0
  BitVec.ofNat 65 (r.sign.toNat * 2 ^ 64 + digits * 2 ^ 8 + r.exp.toNat)

/-- `RESET()`: every piece of the block's state at the value of 10_state.md R30, all at once, and any running command
abandoned (70_reset_and_hazards.md R230, R231). The model's own fields stay (log 4, 5, 7). -/
def State.resetBlock (s : State) : State :=
  { s with
    dr := State.reset.dr, status := State.reset.status, ibuf := State.reset.ibuf, running := State.reset.running }

/-- `ISSUE(c)`: the command is in progress; its LAT is a free value of its own (00_scope.md R9; log 4). -/
def State.beginCommand (s : State) (c : CommandWord) : State :=
  { s with running := some ⟨c, Config.extraCycles s.issued⟩, issued := s.issued + 1 }

/-- The host gets an answer back (20_memory.md R49). -/
def State.reply (s : State) (a : Reply) : State := { s with replies := s.replies ++ [a] }

/-- A host operation takes effect (R49, R40, R42). A read has no side effect on the block. -/
def State.perform (s : State) : HostOp → State
  | .reset => s.resetBlock
  | .writeIbuf k v => s.writeByte k v
  | .readIbuf k => s.reply (.ibufByte k (s.readByte k))
  | .issue c => s.beginCommand c
  | .readReg r => s.reply (.regWord r (s.readReg r).pack)
  | .readStatus => s.reply (.statusByte (readableStatus s.status))

/-- The operations held take effect, all of them, in the order the host performed them (R51). -/
def State.releaseHeld (s : State) : State := s.held.foldl State.perform { s with held := [] }

/-- A host operation arrives while a command runs. `RESET()` is never held and ends the command (20_memory.md R50,
R231). The operations held before it stand before it in the host's order, so they take effect first, without the
abandoned command's writes; a command among them is abandoned too (R51; log 6). Every other operation is held. -/
def State.arrive (s : State) : HostOp → State
  | .reset => s.releaseHeld.resetBlock
  | .writeIbuf k v => { s with held := s.held ++ [.writeIbuf k v] }
  | .readIbuf k => { s with held := s.held ++ [.readIbuf k] }
  | .issue c => { s with held := s.held ++ [.issue c] }
  | .readReg r => { s with held := s.held ++ [.readReg r] }
  | .readStatus => { s with held := s.held ++ [.readStatus] }

end Sys2Proof.Machine
end

