-- ==== Sys2Proof/Machine/Scratch.lean ====
section
/-! DEFINITION. The scratch buffers and their operations (40_primitives.md R85 to R92). A buffer lives inside one
command (10_state.md R27) and is set by `load` or `clear` before it is read (70_reset_and_hazards.md R236). -/

namespace Sys2Proof.Machine

/-- A scratch buffer: 16 digits, index 0 most significant (R85). `load` and `clear` make it 16 digits long and every
operation below keeps its length (Sys2Proof/Laws/Scratch.lean). -/
abbrev Buf := List Digit

/-- `load(R)`: the mantissa at indices 0..13, two guard digits 0 at 14 and 15 (R85). -/
def load (r : Register) : Buf := r.mant.toList ++ [0, 0]

/-- The first 14 digits of a list, then zeros to 14: what `store` (R85) and PARSE (41_parse.md R117) keep. -/
def mantissaOf (ds : List Digit) : Mantissa := Vector.ofFn fun k => ds.getD k.val 0

/-- `store(b) = b[0..13]`: the guard digits are dropped, never rounded (R85). -/
def store (b : Buf) : Mantissa := mantissaOf b

/-- `clear`: `0^16` (R90). -/
def clear : Buf := List.replicate 16 0

/-- `swap(a, b)` (R90). -/
def swap (a b : Buf) : Buf × Buf := (b, a)

/-- `is_zero(b)`: every digit is 0 (R86). -/
def isZero (b : Buf) : Bool := b.all (· == 0)

/-- `reg_is_zero(R)`: all 14 digits of the mantissa are 0; sign and exponent are ignored (R86). -/
def regIsZero (r : Register) : Bool := isZero r.mant.toList

/-- `compare_ge(a, b)`: lexicographic, the most significant digit first; equal buffers compare >= (R87). -/
def compareGe : Buf → Buf → Bool
  | a :: as, b :: bs => if b < a then true else if a < b then false else compareGe as bs
  | _, _ => true

/-- `shift_right_one(b)`: index 0 becomes 0, the last digit is lost (R88). -/
def shiftRightOne (b : Buf) : Buf := 0 :: b.dropLast

/-- `shift_right(b, n)`: `shift_right_one` n times (R88). -/
def shiftRight (b : Buf) : Nat → Buf
  | 0 => b
  | n + 1 => shiftRightOne (shiftRight b n)

/-- `shift_left_one(b)`: the first digit is lost, the last becomes 0 (R89). -/
def shiftLeftOne (b : Buf) : Buf := b.tail ++ [0]

/-- `add_buf(a, b) = (r, cout)`: digit-wise add, the carry moving from index 15 toward index 0 (R91). -/
def addBuf : Buf → Buf → Buf × Bool
  | a :: as, b :: bs =>
    let lower := addBuf as bs
    let here := digitAddCarry a b lower.2
    (here.1 :: lower.1, here.2)
  | _, _ => ([], false)

/-- `sub_buf(a, b) = (r, bout)`: digit-wise subtract, the borrow moving from index 15 toward index 0 (R92). -/
def subBuf : Buf → Buf → Buf × Bool
  | a :: as, b :: bs =>
    let lower := subBuf as bs
    let here := digitSubBorrow a b lower.2
    (here.1 :: lower.1, here.2)
  | _, _ => ([], false)

end Sys2Proof.Machine
end

