-- ==== Sys2Proof/Machine/AddSub.lean ====
section
/-! DEFINITION. ADD and SUB: the add/subtract engine (42_addsub.md). -/

namespace Sys2Proof.Machine

/-- Step 4: the smaller-exponent operand's buffer is shifted right by the difference; `E*` is the larger exponent
(R146). -/
def align (x y : Register) : Buf × Buf × Int :=
  let d := expDiff x.exp y.exp
  if expInt x.exp < expInt y.exp then (shiftRight (load x) d, load y, expInt y.exp)
  else (load x, shiftRight (load y) d, expInt x.exp)

/-- Step 5: whether the digits are added (R148). -/
def effectiveAdd (sx sy sub : Bool) : Bool := (!sub && sx == sy) || (sub && sx != sy)

/-- Step 8: the result, with OV judged on the final `E*` (R152, R94). -/
def computed (sign : Bool) (r : Buf) (e : Int) : EngineResult :=
  .value ⟨sign, store r, storeExp e⟩ false (expOverflow e)

/-- A result the engine writes without exponent arithmetic: OV is 0 (R142, R94). -/
def returned (r : Register) : EngineResult := .value r false false

/-- Step 6: a carry past the top digit shifts the result right, inserts a leading 1 and increments `E*`; the sign is
the first operand's (R149). -/
def effectiveAddition (sx : Bool) (a b : Buf) (e : Int) : EngineResult :=
  let rc := addBuf a b
  if rc.2 then computed sx ((shiftRightOne rc.1).set 0 1) (expInc e) else computed sx rc.1 e

/-- Step 7's loop: leading zeros are shifted away, `E*` falling by one each time (R151). The first argument bounds
the rounds: a buffer that is not all zero needs at most 15 (log 13). -/
def normalize : Nat → Buf → Int → Buf × Int
  | 0, r, e => (r, e)
  | n + 1, r, e => if r.headD 0 = 0 then normalize n (shiftLeftOne r) (expDec e) else (r, e)

/-- Step 7: the smaller buffer is subtracted from the larger; an escaping borrow is INV, a zero result true zero
(R150, R151). -/
def effectiveSubtraction (sx : Bool) (a b : Buf) (e : Int) : EngineResult :=
  let swapped := !compareGe a b
  let ab := if swapped then swap a b else (a, b)
  let rb := subBuf ab.1 ab.2
  if rb.2 then .inv
  else if isZero rb.1 then returned Register.trueZero
  else
    let ne := normalize 15 rb.1 e
    computed (sx ^^ swapped) ne.1 ne.2

/-- `addsub(x, y, sub)` (R153): the zero operands first (R143, R144), then the collapse (R147), then the digits. -/
def addsub (x y : Register) (sub : Bool) : EngineResult :=
  if regIsZero y then (if regIsZero x then returned Register.trueZero else returned x)
  else if regIsZero x then returned { y with sign := y.sign ^^ sub }
  else if expDiff x.exp y.exp > Config.alignLimit then
    if expInt x.exp < expInt y.exp then returned { y with sign := y.sign ^^ sub } else returned x
  else
    let abe := align x y
    if effectiveAdd x.sign y.sign sub then effectiveAddition x.sign abe.1 abe.2.1 abe.2.2
    else effectiveSubtraction x.sign abe.1 abe.2.1 abe.2.2

/-- `ADD d<rd>, d<rs1>, d<rs2>` (R140). -/
def execAdd (rd rs1 rs2 : RegIndex) (s : State) : Host.Outcome State Fault Refusal :=
  let xy := operandsRRR s rs1 rs2
  .next (s.finish rd (addsub xy.1 xy.2 false))

/-- `SUB d<rd>, d<rs1>, d<rs2>` (R141). -/
def execSub (rd rs1 rs2 : RegIndex) (s : State) : Host.Outcome State Fault Refusal :=
  let xy := operandsRRR s rs1 rs2
  .next (s.finish rd (addsub xy.1 xy.2 true))

end Sys2Proof.Machine
end

