-- ==== Sys2Proof/Machine/Div.lean ====
section
/-! DEFINITION. DIV: the divide engine (44_div.md). -/

namespace Sys2Proof.Machine

/-- The DZ sentinel `(s, 0^14, 0)` (10_state.md R23, 44_div.md R191). -/
def divZeroSentinel (s : Bool) : Register := ⟨s, Vector.replicate 14 0, 0#8⟩

/-- Step 4's pre-shift of an operand's scratch copy (R194). -/
def preShift (r : Register) : Buf := shiftRightOne (load r)

/-- The while loop of R195 at one position: subtract while `A >= B`, counting the quotient digit `q`; `none` where the
count would exceed 9. The first argument bounds the rounds: ten from `q = 0` are enough (R238, log 13). -/
def quotientDigit (b : Buf) : Nat → Digit → Buf → Option (Digit × Buf)
  | 0, _, _ => none
  | n + 1, q, a =>
    if compareGe a b then
      if h : q.val + 1 > 9 then none else quotientDigit b n ⟨q.val + 1, by omega⟩ (subBuf a b).1
    else some (q, a)

/-- The loop of R195 over `n` positions, most significant quotient digit first: the digits of Q; `none` is INV. -/
def quotientDigits (b : Buf) : Nat → Buf → Option Buf
  | 0, _ => some []
  | n + 1, a =>
    match quotientDigit b 10 0 a with
    | none => none
    | some (q, a') =>
      match quotientDigits b n (shiftLeftOne a') with
      | none => none
      | some qs => some (q :: qs)

/-- The quotient buffer Q before normalization (R194, R195); `none` is INV. -/
def divQuotient (x y : Register) : Option Buf := quotientDigits (preShift y) 16 (preShift x)

/-- Step 6: one left shift where the leading digit is 0, `E*` falling by one (R196). -/
def divNormalize (s : Bool) (q : Buf) (e : Int) : EngineResult :=
  if q.headD 0 = 0 then .value ⟨s, store (shiftLeftOne q), storeExp (expDec e)⟩ false (expOverflow (expDec e))
  else .value ⟨s, store q, storeExp e⟩ false (expOverflow e)

/-- `div(x, y)` (R197): the zero divisor first (R191), then the zero dividend (R192). -/
def divide (x y : Register) : EngineResult :=
  if regIsZero y then .value (divZeroSentinel (x.sign ^^ y.sign)) true false
  else if regIsZero x then .value Register.trueZero false false
  else
    match divQuotient x y with
    | none => .inv
    | some q => divNormalize (x.sign ^^ y.sign) q (expSub x.exp y.exp)

/-- `DIV d<rd>, d<rs1>, d<rs2>` (R190). -/
def execDiv (rd rs1 rs2 : RegIndex) (s : State) : Host.Outcome State Fault Refusal :=
  let xy := operandsRRR s rs1 rs2
  .next (s.finish rd (divide xy.1 xy.2))

end Sys2Proof.Machine
end

