-- ==== Sys2Proof/Machine/Mul.lean ====
section
/-! DEFINITION. MUL: the multiply engine (43_mul.md). -/

namespace Sys2Proof.Machine

/-- `T` for one partial product: cleared, then the tens digit at index `i` and the units digit at `i + 1`
(R173, R174, R175). -/
def partialProduct (i : Nat) (pp : BitVec 8) : Buf :=
  (clear.set i (nibbleDigit (pp.extractLsb' 4 4))).set (i + 1) (nibbleDigit (pp.extractLsb' 0 4))

/-- The inner loop of R173, for `i` from `n - 1` down to 0: the partial products of the digits of `x` with one digit of
`y`; `none` is a carry escaping the accumulator's top digit. -/
def mulRow (mx : List Digit) (yd : Digit) : Nat → Buf → Option Buf
  | 0, acc => some acc
  | i + 1, acc =>
    let rc := addBuf acc (partialProduct i (digitMult (mx.getD i 0) yd))
    if rc.2 then none else mulRow mx yd i rc.1

/-- The outer loop of R173, for `j` from `n - 1` down to 0: shift the accumulator, then add the row of `my[j]`. -/
def mulRows (mx my : List Digit) : Nat → Buf → Option Buf
  | 0, acc => some acc
  | j + 1, acc =>
    match mulRow mx (my.getD j 0) 14 (shiftRightOne acc) with
    | some acc' => mulRows mx my j acc'
    | none => none

/-- The accumulator before normalization (R173); `none` is INV. -/
def mulAccumulator (x y : Register) : Option Buf := mulRows x.mant.toList y.mant.toList 14 clear

/-- Step 4: one left shift where the leading digit is 0, else `E*` is incremented (R176). -/
def mulNormalize (s : Bool) (acc : Buf) (e : Int) : EngineResult :=
  if acc.headD 0 = 0 then .value ⟨s, store (shiftLeftOne acc), storeExp e⟩ false (expOverflow e)
  else .value ⟨s, store acc, storeExp (expInc e)⟩ false (expOverflow (expInc e))

/-- `mul(x, y)` (R177). -/
def mul (x y : Register) : EngineResult :=
  if regIsZero x || regIsZero y then .value Register.trueZero false false
  else
    match mulAccumulator x y with
    | none => .inv
    | some acc => mulNormalize (x.sign ^^ y.sign) acc (expAdd x.exp y.exp)

/-- `MUL d<rd>, d<rs1>, d<rs2>` (R170). -/
def execMul (rd rs1 rs2 : RegIndex) (s : State) : Host.Outcome State Fault Refusal :=
  let xy := operandsRRR s rs1 rs2
  .next (s.finish rd (mul xy.1 xy.2))

end Sys2Proof.Machine
end

