-- ==== Sys2Proof/Machine/Parse.lean ====
section
/-! DEFINITION. PARSE: the input record, its well-formedness and its value (41_parse.md). -/

namespace Sys2Proof.Machine

/-- The character codes of the record (R113; ASCII, as the spec's K2 and D19 fix it). -/
def chSpace : Byte := 0x20#8
/-- `'+'` (R113). -/
def chPlus : Byte := 0x2B#8
/-- `'-'` (R113). -/
def chMinus : Byte := 0x2D#8
/-- `'.'` (R113). -/
def chPoint : Byte := 0x2E#8
/-- `'E'` (R113). -/
def chE : Byte := 0x45#8

/-- `'0'`..`'9'` (R113). -/
def isDigitChar (c : Byte) : Bool := decide (0x30#8 ≤ c) && decide (c ≤ 0x39#8)

/-- `digit(ch) = code(ch) - 0x30`, for a digit character (R113). -/
def charDigit (c : Byte) : Digit := Fin.ofNat 10 (c.toNat - 0x30)

/-- Character `k` of a record. -/
def charAt (c : List Byte) (k : Nat) : Byte := c.getD k 0x00#8

/-- The exponent field is present iff `c[12]` is `'E'` (R111). -/
def hasExponent (c : List Byte) : Bool := charAt c 12 == chE

/-- The mantissa field F: `c[1..11]` with an exponent field, `c[1..15]` without (R111). -/
def mantissaField (c : List Byte) : List Byte := if hasExponent c then (c.drop 1).take 11 else (c.drop 1).take 15

/-- `body`: F without its trailing spaces (R112, R119). -/
def fieldBody (f : List Byte) : List Byte := (f.reverse.dropWhile (· == chSpace)).reverse

/-- W1: `c[0]` is `' '` or `'-'` (R112). -/
def signWellFormed (c : List Byte) : Bool := charAt c 0 == chSpace || charAt c 0 == chMinus

/-- W2: an exponent field is a sign and two digits (R112). -/
def exponentWellFormed (c : List Byte) : Bool :=
  !hasExponent c ||
    ((charAt c 13 == chPlus || charAt c 13 == chMinus) && isDigitChar (charAt c 14) && isDigitChar (charAt c 15))

/-- W3: the body holds digits and at most one point, at least one digit, and starts at F[0] (R112). W4 holds with it:
a character that is none of these, before the trailing spaces, is in the body. -/
def bodyWellFormed (body : List Byte) : Bool :=
  body.all (fun c => isDigitChar c || c == chPoint) && decide (body.count chPoint ≤ 1) && body.any isDigitChar

/-- `well_formed(c)` (R112). -/
def wellFormedRecord (c : List Byte) : Bool :=
  signWellFormed c && exponentWellFormed c && bodyWellFormed (fieldBody (mantissaField c))

/-- `E0`: the exponent field's own contribution (R114). -/
def initialExp (c : List Byte) : Int :=
  if hasExponent c then
    let mag : Int := 10 * (charDigit (charAt c 14)).val + (charDigit (charAt c 15)).val
    if charAt c 13 == chMinus then Config.bias - mag else Config.bias + mag
  else Config.bias

/-- `I`: the digits of the body before the point (R116). -/
def integerDigits (body : List Byte) : List Digit := (body.takeWhile (· != chPoint)).map charDigit

/-- `Fr`: the digits of the body after the point (R116). -/
def fractionDigits (body : List Byte) : List Digit := ((body.dropWhile (· != chPoint)).drop 1).map charDigit

/-- Steps 3 to 5: the significant digits `S` and the exponent adjustment `adj` (R116). -/
def significant (i fr : List Digit) : List Digit × Int :=
  let i' := i.dropWhile (· == 0)
  if i' ≠ [] then (i' ++ fr, (i'.length : Int) - 1)
  else
    let z := (fr.takeWhile (· == 0)).length
    (fr.drop z, -(z : Int) - 1)

/-- `parse_value(c)`, for a well-formed record (R119): true zero where no significant digit remains (R118), else the
sign of `c[0]`, the first 14 significant digits zero-filled (R117), and `E0 + adj`. -/
def parseValue (c : List Byte) : Register :=
  let body := fieldBody (mantissaField c)
  let sa := significant (integerDigits body) (fractionDigits body)
  if sa.1 = [] then Register.trueZero
  else ⟨charAt c 0 == chMinus, mantissaOf sa.1, storeExp (initialExp c + sa.2)⟩

/-- `PARSE d<rd>` (R110). -/
def execParse (rd : RegIndex) (s : State) : Host.Outcome State Fault Refusal :=
  let c := operandsR s
  .next (if wellFormedRecord c then s.complete rd (parseValue c) (statusOf false false) else s.signalOnly statusPE)

end Sys2Proof.Machine
end

