-- ==== Sys2Proof/Machine/Run.lean ====
section
/-! DEFINITION. How the block goes on: a running command waits and completes, and host operations arrive, are held and
take effect (20_memory.md R49 to R51, 30_encoding.md R67). `Step.lean` only calls these. -/

namespace Sys2Proof.Machine

/-- A command word takes effect, as one atomic transition (30_encoding.md R67, 00_scope.md R8): the decoded command,
or, for a reserved word, ILL alone (R66). -/
def runWord (c : CommandWord) (s : State) : Host.Outcome State Fault Refusal :=
  match decode c with
  | .ok i => exec i s
  | .error _ => .next (s.signalOnly statusILL)

/-- A waiting step of a running command: its countdown falls, and the host's next operation, if any, arrives
(20_memory.md R50; log 6). -/
def State.waitCycle (s : State) (c : CommandWord) (left : Nat) : State :=
  let s' := { s with running := some ⟨c, left⟩ }
  match s.script with
  | [] => s'
  | op :: rest => State.arrive { s' with script := rest } op

/-- No command is running: the oldest held operation takes effect, else the host's next one, else nothing happens
(R50, R51; log 8). -/
def State.serveHost (s : State) : State :=
  match s.held with
  | op :: rest => State.perform { s with held := rest } op
  | [] =>
    match s.script with
    | op :: rest => State.perform { s with script := rest } op
    | [] => s

/-- One step of the block. -/
def advance (s : State) : Host.Outcome State Fault Refusal :=
  match s.running with
  | none => .next s.serveHost
  | some ⟨c, 0⟩ => runWord c s
  | some ⟨c, n + 1⟩ => .next (s.waitCycle c n)

/-- A host operation as one atomic transition: a command issued takes its whole effect at once, whatever its LAT
(00_scope.md R8, 20_memory.md R46, R51). This is the order statements compare runs with; the step does not use it. -/
def State.performAtomically (s : State) : HostOp → State
  | .issue c =>
    match runWord c s with
    | .next t => t
    | _ => s
  | .reset => s.perform .reset
  | .writeIbuf k v => s.perform (.writeIbuf k v)
  | .readIbuf k => s.perform (.readIbuf k)
  | .readReg r => s.perform (.readReg r)
  | .readStatus => s.perform .readStatus

/-- A command word put where the next step runs it: in progress, with no waiting step left. -/
def State.placeWord (s : State) (c : CommandWord) : State := { s with running := some ⟨c, 0⟩ }

end Sys2Proof.Machine
end

