-- ==== Sys2Proof/Machine/Value.lean ====
section
/-! DEFINITION. What digits, registers and records stand for as numbers (00_scope.md R13, 40_primitives.md R91), in the
terms the accuracy laws use. What a record's text says is read off its bytes here, by none of PARSE's own definitions. -/

namespace Sys2Proof.Machine

/-- A digit sequence read as a decimal integer, most significant digit first (R91, R179). -/
def digitsNat : List Digit → Nat
  | [] => 0
  | d :: ds => d.val * 10 ^ ds.length + digitsNat ds

/-- A mantissa read as a 14-digit integer (43_mul.md R179, 44_div.md R199). -/
def Register.significand (r : Register) : Nat := digitsNat r.mant.toList

/-- The weight of the 14th mantissa digit: one ulp (00_scope.md R14). -/
def Register.ulp (r : Register) : ℚ := (10 : ℚ) ^ ((r.exp.toNat : Int) - 128 - 13)

/-- The magnitude of `val(R)`: the significand in units of the 14th digit (R13: the point stands after `m[0]`). -/
def Register.magnitude (r : Register) : ℚ := (r.significand : ℚ) * r.ulp

/-- `val(R)` (R13). The spec gives it for a Register with `e ≠ 0`; where `e` is 0 and the leading digit is not, this is the
number of the same formula, since such an operand enters every engine with its exponent taken as 0 (DEDUCED, log 17). -/
def Register.value (r : Register) : ℚ := (if r.sign then -1 else 1) * r.magnitude

/-- The exact `x + y` of ADD or `x - y` of SUB (42_addsub.md R156). -/
def exactSum (x y : Register) (sub : Bool) : ℚ := if sub then x.value - y.value else x.value + y.value

/-- A digit character as a number: its code less 0x30 (41_parse.md R113). -/
def textDigit (ch : Byte) : Nat := ch.toNat - 0x30

/-- A run of digit characters read as a decimal integer. -/
def textNat (cs : List Byte) : Nat := cs.foldl (fun n ch => 10 * n + textDigit ch) 0

/-- The exponent a record's text names: plus or minus `10 * c[14] + c[15]` after an `'E'` at `c[12]`, by the sign at
`c[13]`; 0 without one (R111, R114). -/
def textExponent (c : List Byte) : Int :=
  if c.getD 12 0 = 0x45#8 then
    let mag : Int := 10 * (textDigit (c.getD 14 0) : Int) + textDigit (c.getD 15 0)
    if c.getD 13 0 = 0x2D#8 then -mag else mag
  else 0

/-- The characters of a record's number: those of `c[1..11]`, or of `c[1..15]` without an exponent field, before the
first space (R111, R112). -/
def textBody (c : List Byte) : List Byte :=
  ((c.drop 1).take (if c.getD 12 0 = 0x45#8 then 11 else 15)).takeWhile (· != 0x20#8)

/-- The exact value of a well-formed record's text, read off its bytes: the integer before the point, the fraction after
it, the power of ten of the exponent field, and the sign of `c[0]` (R111 to R115). -/
def recordValue (c : List Byte) : ℚ :=
  let before := (textBody c).takeWhile (· != 0x2E#8)
  let after := ((textBody c).dropWhile (· != 0x2E#8)).drop 1
  (if c.getD 0 0 = 0x2D#8 then -1 else 1) * ((textNat before : ℚ) + (textNat after : ℚ) / 10 ^ after.length) *
    (10 : ℚ) ^ textExponent c

/-- The value 1, `(0, 1 0^13, 128)` (00_scope.md R10). -/
def Register.one : Register := ⟨false, mantissaOf [1], 128#8⟩

/-- The register with its sign flipped: `negate` (42_addsub.md R157). -/
def Register.negate (r : Register) : Register := { r with sign := !r.sign }

end Sys2Proof.Machine
end

