-- ==== Sys2Proof/Safety.lean ====
section
/-! DEFINITION. What counts as a safe state and a right result, in the terms the statements use (10_state.md R22, R33). -/

namespace Sys2Proof.Machine

/-- `n` steps of the machine, stopping at a fault or a refusal: the host's own run of `Sys2Proof.core`. -/
def runSteps (n : Nat) (s : State) : Host.Outcome State Fault Refusal := Sys2Proof.core.run n s

/-- A normalized Register: `m[0] ≠ 0` and `e ≠ 0` (R22). -/
abbrev Register.Normalized (r : Register) : Prop := r.mant[0] ≠ 0 ∧ r.exp ≠ 0#8

/-- Class (c) of R33: a DZ sentinel, of either sign. -/
abbrev Register.Sentinel (r : Register) : Prop := r.mant = Vector.replicate 14 0 ∧ r.exp = 0#8

/-- Class (d) of R33: a wrapped result, `m[0]` in 1..9 and `e = 0`. -/
abbrev Register.Wrapped (r : Register) : Prop := r.mant[0] ≠ 0 ∧ r.exp = 0#8

/-- One of the four things a reachable register holds (R33). -/
abbrev Register.InClass (r : Register) : Prop :=
  r = Register.trueZero ∨ r.Normalized ∨ r.Sentinel ∨ r.Wrapped

/-- The invariant of the reachable states: every register in its class, STATUS clear or one of DZ, OV, PE and ILL alone
(R33: INV is never signalled; R217), IBUF in canonical form. -/
abbrev State.Inv (s : State) : Prop :=
  (∀ i : RegIndex, (s.readReg i).InClass) ∧ s.status ∈ [0x00#8, 0x01#8, 0x02#8, 0x04#8, 0x10#8] ∧ Memory.wf s.ibuf = true

/-- `r`, with the flag `ov`, is the exact result `d` cut to 14 significant digits. `e` is the exact exponent `E*`:
what is stored is `E* mod 256`, and `ov` says whether `E*` lies outside 1..255 (40_primitives.md R94). The leading digit
is not 0, the magnitude is at most one ulp below `|d|` and never above it, and the sign is that of `d` (41_parse.md
R117, 42_addsub.md R156, 43_mul.md R179, 44_div.md R199). -/
def TruncationOf (r : Register) (ov : Bool) (d : ℚ) : Prop :=
  ∃ e : Int, (r.exp.toNat : Int) = e % 256 ∧ (ov = true ↔ e < 1 ∨ 255 < e) ∧ r.mant[0] ≠ 0 ∧
    (r.significand : ℚ) * (10 : ℚ) ^ (e - 141) ≤ |d| ∧ |d| < ((r.significand : ℚ) + 1) * (10 : ℚ) ^ (e - 141) ∧
    (r.sign = true ↔ d < 0)

/-- The weaker bound of R156 (c): the magnitude of `r` is less than one ulp below `|d|` and less than a tenth of an ulp
above it. `e` is the exact exponent, as in `TruncationOf`. -/
def NearResultOf (r : Register) (ov : Bool) (d : ℚ) : Prop :=
  ∃ e : Int, (r.exp.toNat : Int) = e % 256 ∧ (ov = true ↔ e < 1 ∨ 255 < e) ∧ r.mant[0] ≠ 0 ∧
    |d| - (10 : ℚ) ^ (e - 141) < (r.significand : ℚ) * (10 : ℚ) ^ (e - 141) ∧
    (r.significand : ℚ) * (10 : ℚ) ^ (e - 141) < |d| + (10 : ℚ) ^ (e - 141) / 10 ∧
    (r.sign = true ↔ d < 0)

/-- The block as `RESET()` leaves it (R30, 70_reset_and_hazards.md R230). -/
def State.AfterReset (s : State) : Prop :=
  (∀ i : RegIndex, s.readReg i = ⟨false, Vector.replicate 14 0, 128#8⟩) ∧ s.status = 0x00#8 ∧
    (∀ k : ByteIndex, s.readByte k = 0x00#8) ∧ s.running = none

end Sys2Proof.Machine
end

