-- ==== Sys2Proof/Certificates/Slice0/Obligations.lean ====
section
/-! DEFINITION. The statements for the provers. Each docstring names the rules of spec/ it formalises. -/

open Sys2Proof Sys2Proof.Machine

/-! ## Reset and the host interface -/

/-- R30: the state right after reset. -/
def Obligations.ResetLeavesSpecValues : Prop := State.reset.AfterReset

/-- R230: `RESET()` served with no command running restores the block, whatever it held. -/
def Obligations.ResetOperationRestoresBlock : Prop :=
  ∀ (s : State) (rest : List HostOp), s.running = none → s.held = [] → s.script = .reset :: rest →
    ∃ t, step s = .next t ∧ t.AfterReset ∧ t.script = rest

/-- From R231, R50 and R51: a `RESET()` arriving while a command runs abandons it: no write of the command happens and
the state is that of R230, whatever the command and its remaining cycles; what was held before it has taken effect, in
order, and nothing is held after it. Every other operation arriving then is held. That the host's next operation
arrives in this very waiting step is the model's choice, and what an operation held before the `RESET()` answers is its
deduction (log 6). -/
def Obligations.ResetEndsRunningCommand : Prop :=
  ∀ (s : State) (c : CommandWord) (n : Nat) (op : HostOp) (rest : List HostOp),
    s.running = some ⟨c, n + 1⟩ → s.script = op :: rest →
    ∃ t, step s = .next t ∧ t.script = rest ∧
      if op = .reset then
        t.AfterReset ∧ t.held = [] ∧ t.replies = (s.held.foldl State.perform { s with held := [] }).replies
      else (∃ m, t.running = some ⟨c, m⟩) ∧ t.held = s.held ++ [op]

/-- R50, R8: while a command runs, an operation other than `RESET()` is held behind those already held, and nothing the
host can see changes. That one operation arrives per waiting step is the model's choice (log 6). -/
def Obligations.RunningCommandHoldsOperations : Prop :=
  ∀ (s : State) (c : CommandWord) (n : Nat) (op : HostOp) (rest : List HostOp),
    s.running = some ⟨c, n + 1⟩ → s.script = op :: rest → op ≠ .reset →
    step s = .next { s with running := some ⟨c, n⟩, script := rest, held := s.held ++ [op] }

/-- R9, R50, R237: a command completes after its waiting steps, however many they are (a free number, log 4), with
the effect of its word at once; what the host did meanwhile is held, in order. That one operation arrives per waiting
step, so which ones are held at the end, is the model's choice (log 6). -/
def Obligations.CommandCompletesWhateverLatency : Prop :=
  ∀ (n : Nat) (s : State) (c : CommandWord),
    s.running = some ⟨c, n⟩ → (∀ op ∈ s.script.take n, op ≠ .reset) →
    runSteps (n + 1) s =
      runWord c { s with running := some ⟨c, 0⟩, held := s.held ++ s.script.take n, script := s.script.drop n }

/-- R49: an issued command word completes, whatever its free LAT (log 4), as one atomic effect of its word. -/
def Obligations.IssuedCommandCompletes : Prop :=
  ∀ (s : State) (c : CommandWord), s.running = none → s.held = [] → s.script = [.issue c] →
    runSteps (Config.extraCycles s.issued + 2) s =
      runWord c { s with running := some ⟨c, 0⟩, script := [], issued := s.issued + 1 }

/-- From R50, R51 and R52: after a due command word, a reserved one too, whatever operation is first among those held
takes effect next, on the state the command left, and those behind it stay held in order. Over a whole run, from any
state with no command in progress: the block comes to rest with all the host's operations done, in the registers,
STATUS and IBUF that they leave as atomic transitions in the host's order, and, where no `RESET()` is among them, with
the answers they give so. (Where one abandons a command, what the reads held before it answer is log 6's.) -/
def Obligations.HeldOperationsTakeEffectInOrder : Prop :=
  (∀ (s : State) (c : CommandWord) (op : HostOp) (rest : List HostOp),
    s.running = some ⟨c, 0⟩ → s.held = op :: rest →
    ∃ t, runWord c s = .next t ∧ step s = .next t ∧ t.running = none ∧ t.held = op :: rest ∧
      runSteps 2 s = .next (State.perform { t with held := rest } op)) ∧
  ∀ s : State, s.running = none → s.held = [] →
    ∃ n t, runSteps n s = .next t ∧ t.running = none ∧ t.held = [] ∧ t.script = [] ∧
      let u := s.script.foldl State.performAtomically s
      t.dr = u.dr ∧ t.status = u.status ∧ t.ibuf = u.ibuf ∧ (HostOp.reset ∉ s.script → t.replies = u.replies)

/-- R40: `WRITE_IBUF(k, v)` changes byte k of IBUF and nothing else of the block. -/
def Obligations.WriteIbufChangesOneByte : Prop :=
  ∀ (s : State) (k : ByteIndex) (v : Byte) (rest : List HostOp),
    s.running = none → s.held = [] → s.script = .writeIbuf k v :: rest → Memory.wf s.ibuf = true →
    ∃ t, step s = .next t ∧ t.readByte k = v ∧ (∀ j : ByteIndex, j ≠ k → t.readByte j = s.readByte j) ∧
      t.dr = s.dr ∧ t.status = s.status ∧ t.running = none ∧ t.held = [] ∧ t.script = rest ∧ t.replies = s.replies

/-- R40, R42, R49, R24: the three reads answer what stands there and change nothing of the block. -/
def Obligations.HostReadsAnswerWithoutEffect : Prop :=
  ∀ (s : State) (rest : List HostOp), s.running = none → s.held = [] →
    (∀ k : ByteIndex, s.script = .readIbuf k :: rest →
      step s = .next { s with script := rest, replies := s.replies ++ [.ibufByte k (s.readByte k)] }) ∧
    (∀ r : RegIndex, s.script = .readReg r :: rest →
      step s = .next { s with script := rest, replies := s.replies ++ [.regWord r (s.readReg r).pack] }) ∧
    (s.script = .readStatus :: rest →
      step s = .next { s with script := rest, replies := s.replies ++ [.statusByte (s.status &&& 0x1F#8)] })

/-- R43: where each field stands in the 65-bit word of the read port. -/
def Obligations.PortWordLayout : Prop :=
  ∀ r : Register, r.pack.getLsbD 64 = r.sign ∧
    (∀ k, (hk : k < 14) → r.pack.extractLsb' (60 - 4 * k) 4 = BitVec.ofNat 4 r.mant[k].val) ∧
    r.pack.extractLsb' 0 8 = r.exp

/-! ## Decoding -/

/-- Every well-formed instruction is what its own word decodes to. -/
def Obligations.DecodeEncodeRoundTrip : Prop :=
  ∀ i : Instr, i.wellFormed = true → decode (encode i) = .ok i

/-- R65, R66: each command has one word: a word that decodes to an instruction is that instruction's word. -/
def Obligations.EncodeDecodeRoundTrip : Prop :=
  ∀ (c : CommandWord) (i : Instr), decode c = .ok i → encode i = c

/-- R66: the decoder rejects exactly the reserved words. -/
def Obligations.DecoderRejectsExactlyReservedWords : Prop :=
  ∀ c : CommandWord, (∃ e, decode c = .error e) ↔
    ((c.extractLsb' 12 4 = 0x0#4 ∨ 0x6#4 ≤ c.extractLsb' 12 4) ∨
      (c.extractLsb' 12 4 = 0x1#4 ∧ c.extractLsb' 0 8 ≠ 0x00#8))

/-- R63, R67, R68: words written out from the spec's encoding (95_test_vectors.md 2.8). -/
def Obligations.WrittenOutWordsDecode : Prop :=
  decode 0x1F00#16 = .ok (.parse 15) ∧ decode 0x2012#16 = .ok (.add 0 1 2) ∧ decode 0x3201#16 = .ok (.sub 2 0 1) ∧
    decode 0x4333#16 = .ok (.mul 3 3 3) ∧ decode 0x5FFF#16 = .ok (.div 15 15 15) ∧
    (∃ e, decode 0x1001#16 = .error e) ∧ (∃ e, decode 0x6123#16 = .error e)

/-- R67: a due command word that decodes to an instruction is that instruction's `exec`, in the same state. -/
def Obligations.StepRunsDecodedCommand : Prop :=
  ∀ (s : State) (c : CommandWord) (i : Instr), s.running = some ⟨c, 0⟩ → decode c = .ok i → i.wellFormed = true →
    step s = exec i s

/-- R67: the whole decode procedure, field by field. -/
def Obligations.DecodeAndRunProcedure : Prop :=
  ∀ (s : State) (c : CommandWord), s.running = some ⟨c, 0⟩ →
    let op := c.extractLsb' 12 4
    let rd : RegIndex := (c.extractLsb' 8 4).toFin
    let rs1 : RegIndex := (c.extractLsb' 4 4).toFin
    let rs2 : RegIndex := (c.extractLsb' 0 4).toFin
    step s =
      if op = 0x1#4 ∧ c.extractLsb' 0 8 = 0x00#8 then exec (.parse rd) s
      else if op = 0x2#4 then exec (.add rd rs1 rs2) s
      else if op = 0x3#4 then exec (.sub rd rs1 rs2) s
      else if op = 0x4#4 then exec (.mul rd rs1 rs2) s
      else if op = 0x5#4 then exec (.div rd rs1 rs2) s
      else .next { s with status := 0x10#8, running := none }

/-! ## Digit primitives, scratch buffers, exponents -/

/-- R80: decimal add with carry. -/
def Obligations.DigitAddCarryAdjustsBySix : Prop :=
  ∀ (d1 d2 : Digit) (cin : Bool),
    let s := d1.val + d2.val + cin.toNat
    ((digitAddCarry d1 d2 cin).1.val = if s > 9 then (s + 6) % 16 else s % 16) ∧
      ((digitAddCarry d1 d2 cin).2 = true ↔ s > 9) ∧
      (digitAddCarry d1 d2 cin).1.val + 10 * (digitAddCarry d1 d2 cin).2.toNat = s

/-- R81: decimal subtract with borrow. -/
def Obligations.DigitSubBorrowAdjustsByTen : Prop :=
  ∀ (d1 d2 : Digit) (bin : Bool),
    let t : Int := (d1.val : Int) - d2.val - bin.toNat
    (((digitSubBorrow d1 d2 bin).1.val : Int) = if t < 0 then t + 10 else t) ∧
      ((digitSubBorrow d1 d2 bin).2 = true ↔ t < 0)

/-- R82: the packed product of two digits; and R83's inference, derived there, that double-dabble gives it for every
product. -/
def Obligations.DigitProductIsPackedDecimal : Prop :=
  ∀ d1 d2 : Digit,
    (digitMult d1 d2).toNat = (d1.val * d2.val / 10) * 16 + d1.val * d2.val % 10 ∧
      doubleDabble (BitVec.ofNat 8 (d1.val * d2.val)) = digitMult d1 d2

/-- R91: whole-buffer add, as 16-digit numbers. -/
def Obligations.AddBufAddsModulo : Prop :=
  ∀ a b : Buf, a.length = 16 → b.length = 16 →
    digitsNat (addBuf a b).1 = (digitsNat a + digitsNat b) % 10 ^ 16 ∧
      ((addBuf a b).2 = true ↔ 10 ^ 16 ≤ digitsNat a + digitsNat b)

/-- R92: whole-buffer subtract, as 16-digit numbers. -/
def Obligations.SubBufSubtractsModulo : Prop :=
  ∀ a b : Buf, a.length = 16 → b.length = 16 →
    (digitsNat (subBuf a b).1 : Int) = ((digitsNat a : Int) - digitsNat b) % 10 ^ 16 ∧
      ((subBuf a b).2 = true ↔ digitsNat a < digitsNat b)

/-- R87: the lexicographic comparison of two buffers is the numeric one. -/
def Obligations.CompareGeIsNumeric : Prop :=
  ∀ a b : Buf, a.length = 16 → b.length = 16 → (compareGe a b = true ↔ digitsNat b ≤ digitsNat a)

/-- R88, R89: a right shift drops the low digits; a left shift of a buffer with a leading 0 multiplies by ten. -/
def Obligations.ShiftsScaleByTen : Prop :=
  ∀ b : Buf, b.length = 16 →
    (∀ n, digitsNat (shiftRight b n) = digitsNat b / 10 ^ n) ∧
      (b.headD 0 = 0 → digitsNat (shiftLeftOne b) = 10 * digitsNat b)

/-- R93, R94, R95: the exact exponents, what is stored of them, when OV is set, and the exponent difference. -/
def Obligations.ExponentArithmetic : Prop :=
  (∀ ex ey : BitVec 8, expAdd ex ey = (ex.toNat : Int) + ey.toNat - 128 ∧
      expSub ex ey = (ex.toNat : Int) - ey.toNat + 128 ∧ (expDiff ex ey : Int) = |(ex.toNat : Int) - ey.toNat|) ∧
    (∀ e : Int, ((storeExp e).toNat : Int) = e % 256 ∧ (expOverflow e = true ↔ e < 1 ∨ 255 < e))

/-! ## PARSE -/

/-- R110: PARSE writes the value of a well-formed record, else signals PE and writes no register. -/
def Obligations.ParseWritesRecordOrSignalsPE : Prop :=
  ∀ (rd : RegIndex) (s : State),
    let c := (List.finRange 16).map fun k => s.readByte k
    exec (.parse rd) s =
      if wellFormedRecord c = true then
        .next { s with dr := s.dr.set rd.val (parseValue c) rd.isLt, status := 0x00#8, running := none }
      else .next { s with status := 0x04#8, running := none }

/-- R112, R113: the well-formed records, as W1 to W4 say, in character codes; a record that is none signals PE and
writes no register. -/
def Obligations.WellFormedRecordsAreThoseOfTheRule : Prop :=
  (∀ c : List Byte, c.length = 16 →
    (wellFormedRecord c = true ↔
      (c.getD 0 0 = 0x20#8 ∨ c.getD 0 0 = 0x2D#8) ∧
      (c.getD 12 0 = 0x45#8 →
        (c.getD 13 0 = 0x2B#8 ∨ c.getD 13 0 = 0x2D#8) ∧ (0x30#8 ≤ c.getD 14 0 ∧ c.getD 14 0 ≤ 0x39#8) ∧
          (0x30#8 ≤ c.getD 15 0 ∧ c.getD 15 0 ≤ 0x39#8)) ∧
      ∃ (body : List Byte) (n : Nat),
        (if c.getD 12 0 = 0x45#8 then (c.drop 1).take 11 else (c.drop 1).take 15) = body ++ List.replicate n 0x20#8 ∧
        (∀ ch ∈ body, (0x30#8 ≤ ch ∧ ch ≤ 0x39#8) ∨ ch = 0x2E#8) ∧ body.count 0x2E#8 ≤ 1 ∧
        ∃ ch ∈ body, 0x30#8 ≤ ch ∧ ch ≤ 0x39#8)) ∧
    ∀ (rd : RegIndex) (s : State), wellFormedRecord ((List.finRange 16).map fun k => s.readByte k) = false →
      exec (.parse rd) s = .next { s with status := 0x04#8, running := none }

/-- R118: what a well-formed record parses to: true zero, or a Register with a leading digit 1..9 whose exponent lies in
19..237, and in 114..142 where there is no exponent field. -/
def Obligations.ParsedRegisterClass : Prop :=
  ∀ c : List Byte, c.length = 16 → wellFormedRecord c = true →
    parseValue c = Register.trueZero ∨
      ((parseValue c).mant[0] ≠ 0 ∧ 19 ≤ (parseValue c).exp.toNat ∧ (parseValue c).exp.toNat ≤ 237 ∧
        (c.getD 12 0 ≠ 0x45#8 → 114 ≤ (parseValue c).exp.toNat ∧ (parseValue c).exp.toNat ≤ 142))

/-- R117 (its consequence), R111, R114: the parsed sign and magnitude are the exact value of the text truncated to 14
significant digits. `recordValue` reads that value off the 16 bytes themselves, digits and exponent field in character
codes, with no definition of PARSE's. -/
def Obligations.ParseTruncatesExactText : Prop :=
  ∀ c : List Byte, c.length = 16 → wellFormedRecord c = true →
    if recordValue c = 0 then parseValue c = Register.trueZero else TruncationOf (parseValue c) false (recordValue c)

/-! ## ADD and SUB -/

/-- R140, R158: ADD completes in every state with the engine's Register and OV; INV never occurs. -/
def Obligations.AddCompletes : Prop :=
  ∀ (rd rs1 rs2 : RegIndex) (s : State), ∃ r ov,
    addsub (s.readReg rs1) (s.readReg rs2) false = .value r false ov ∧
    exec (.add rd rs1 rs2) s =
      .next { s with dr := s.dr.set rd.val r rd.isLt, status := if ov then 0x02#8 else 0x00#8, running := none }

/-- R141, R158: SUB completes in every state with the engine's Register and OV; INV never occurs. -/
def Obligations.SubCompletes : Prop :=
  ∀ (rd rs1 rs2 : RegIndex) (s : State), ∃ r ov,
    addsub (s.readReg rs1) (s.readReg rs2) true = .value r false ov ∧
    exec (.sub rd rs1 rs2) s =
      .next { s with dr := s.dr.set rd.val r rd.isLt, status := if ov then 0x02#8 else 0x00#8, running := none }

/-- R143, R144: the zero operands, with a DZ sentinel or a negative zero counted as zero (R86). -/
def Obligations.AddSubZeroOperands : Prop :=
  ∀ (x y : Register) (sub : Bool),
    ((∀ k, (hk : k < 14) → y.mant[k] = 0) →
      addsub x y sub = .value (if ∀ k, (hk : k < 14) → x.mant[k] = 0 then Register.trueZero else x) false false) ∧
    ((∀ k, (hk : k < 14) → x.mant[k] = 0) → (¬ ∀ k, (hk : k < 14) → y.mant[k] = 0) →
      addsub x y sub = .value { y with sign := y.sign ^^ sub } false false)

/-- R147: where the exponents differ by more than 14 the larger-exponent operand comes back, without OV. -/
def Obligations.AddSubCollapse : Prop :=
  ∀ (x y : Register) (sub : Bool), (¬ ∀ k, (hk : k < 14) → x.mant[k] = 0) → (¬ ∀ k, (hk : k < 14) → y.mant[k] = 0) →
    (x.exp.toNat + 14 < y.exp.toNat → addsub x y sub = .value { y with sign := y.sign ^^ sub } false false) ∧
    (y.exp.toNat + 14 < x.exp.toNat → addsub x y sub = .value x false false)

/-- R157: ADD commutes, bit for bit, in every state. -/
def Obligations.AddCommutes : Prop :=
  ∀ (rd a b : RegIndex) (s : State), exec (.add rd a b) s = exec (.add rd b a) s

/-- R157, C3: subtracting is adding the negated operand, bit for bit. -/
def Obligations.SubIsAddOfNegation : Prop :=
  ∀ x y : Register, addsub x y true = addsub x y.negate false

/-- R157, R155: a register subtracted from itself leaves true zero, in every state. -/
def Obligations.SubOfItselfIsTrueZero : Prop :=
  ∀ (rd r : RegIndex) (s : State),
    exec (.sub rd r r) s =
      .next { s with dr := s.dr.set rd.val Register.trueZero rd.isLt, status := 0x00#8, running := none }

/-- R156 (a): an effective addition, the collapse among its cases, is the exact result truncated. Operands with e = 0
are among them, to which R13 gives no value: theirs is log 17's (DEDUCED). -/
def Obligations.EffectiveAdditionTruncates : Prop :=
  ∀ (x y : Register) (sub : Bool), x.mant[0] ≠ 0 → y.mant[0] ≠ 0 → (y.sign ^^ sub) = x.sign →
    ∃ r ov, addsub x y sub = .value r false ov ∧ TruncationOf r ov (exactSum x y sub)

/-- R156 (b): an effective subtraction with exponents at most 2 apart is the exact result truncated, or true zero. The
value of an operand with e = 0 is log 17's (DEDUCED). -/
def Obligations.CloseSubtractionTruncates : Prop :=
  ∀ (x y : Register) (sub : Bool), x.mant[0] ≠ 0 → y.mant[0] ≠ 0 → (y.sign ^^ sub) ≠ x.sign →
    expDiff x.exp y.exp ≤ 2 →
    ∃ r ov, addsub x y sub = .value r false ov ∧
      if exactSum x y sub = 0 then r = Register.trueZero ∧ ov = false else TruncationOf r ov (exactSum x y sub)

/-- R156 (c): an effective subtraction with exponents 3 to 14 apart is within the rule's bound. The value of an operand
with e = 0 is log 17's (DEDUCED). -/
def Obligations.FarSubtractionBound : Prop :=
  ∀ (x y : Register) (sub : Bool), x.mant[0] ≠ 0 → y.mant[0] ≠ 0 → (y.sign ^^ sub) ≠ x.sign →
    3 ≤ expDiff x.exp y.exp → expDiff x.exp y.exp ≤ 14 →
    ∃ r ov, addsub x y sub = .value r false ov ∧ NearResultOf r ov (exactSum x y sub)

/-- R156 (d): a collapsed effective subtraction is above the exact magnitude by less than a tenth of an ulp. The value
of a smaller operand with e = 0 is log 17's (DEDUCED). -/
def Obligations.CollapsedSubtractionBound : Prop :=
  ∀ (x y : Register) (sub : Bool), x.mant[0] ≠ 0 → y.mant[0] ≠ 0 → (y.sign ^^ sub) ≠ x.sign →
    14 < expDiff x.exp y.exp →
    ∃ r, addsub x y sub = .value r false false ∧ |exactSum x y sub| < r.magnitude ∧
      r.magnitude < |exactSum x y sub| + r.ulp / 10 ∧ (r.sign = true ↔ exactSum x y sub < 0)

/-! ## MUL -/

/-- R170, R175, R178: MUL completes in every state with the engine's Register and OV; INV never occurs. -/
def Obligations.MulCompletes : Prop :=
  ∀ (rd rs1 rs2 : RegIndex) (s : State), ∃ r ov,
    mul (s.readReg rs1) (s.readReg rs2) = .value r false ov ∧
    exec (.mul rd rs1 rs2) s =
      .next { s with dr := s.dr.set rd.val r rd.isLt, status := if ov then 0x02#8 else 0x00#8, running := none }

/-- R171: MUL with a zero operand writes true zero with sign 0, without OV. -/
def Obligations.MulByZeroIsTrueZero : Prop :=
  ∀ (rd rs1 rs2 : RegIndex) (s : State),
    ((∀ k, (hk : k < 14) → (s.readReg rs1).mant[k] = 0) ∨ (∀ k, (hk : k < 14) → (s.readReg rs2).mant[k] = 0)) →
    exec (.mul rd rs1 rs2) s =
      .next { s with dr := s.dr.set rd.val ⟨false, Vector.replicate 14 0, 128#8⟩ rd.isLt, status := 0x00#8,
                     running := none }

/-- R179: the accumulator before normalization is the floor of the exact product over 10^12, and no carry escapes. -/
def Obligations.MulAccumulatorIsFloor : Prop :=
  ∀ x y : Register, ∃ acc, mulAccumulator x y = some acc ∧ acc.length = 16 ∧
    digitsNat acc = x.significand * y.significand / 10 ^ 12

/-- R179: the product is the exact one truncated to 14 significant digits. The value of an operand with e = 0 is
log 17's (DEDUCED). -/
def Obligations.MulTruncates : Prop :=
  ∀ x y : Register, x.mant[0] ≠ 0 → y.mant[0] ≠ 0 →
    ∃ r ov, mul x y = .value r false ov ∧ TruncationOf r ov (x.value * y.value)

/-- R179: MUL commutes, bit for bit, in every state. -/
def Obligations.MulCommutes : Prop :=
  ∀ (rd a b : RegIndex) (s : State), exec (.mul rd a b) s = exec (.mul rd b a) s

/-- R179, D16: MUL by one gives every nonzero x back; OV where its exponent is 0. -/
def Obligations.MulByOneIsIdentity : Prop :=
  ∀ x : Register, (¬ ∀ k, (hk : k < 14) → x.mant[k] = 0) →
    mul x Register.one = .value x false (decide (x.exp = 0#8))

/-! ## DIV -/

/-- R190, R198: DIV completes wherever the divisor is zero or the dividend's mantissa is below ten times the
divisor's (so for every pair of reachable registers), with the engine's Register and flags, never DZ with OV. -/
def Obligations.DivCompletes : Prop :=
  ∀ (rd rs1 rs2 : RegIndex) (s : State),
    (s.readReg rs2).significand = 0 ∨ (s.readReg rs1).significand < 10 * (s.readReg rs2).significand →
    ∃ r dz ov, divide (s.readReg rs1) (s.readReg rs2) = .value r dz ov ∧ (dz = true → ov = false) ∧
    exec (.div rd rs1 rs2) s =
      .next { s with dr := s.dr.set rd.val r rd.isLt,
                     status := (if dz then 0x01#8 else 0x00#8) ||| (if ov then 0x02#8 else 0x00#8),
                     running := none }

/-- R195, R190: on a dividend's mantissa of ten times the divisor's or more, which no reachable register makes, the
first quotient digit passes 9 and DIV signals INV alone. -/
def Obligations.DivQuotientDigitOverNineSignalsInv : Prop :=
  ∀ (rd rs1 rs2 : RegIndex) (s : State),
    (s.readReg rs2).significand ≠ 0 → 10 * (s.readReg rs2).significand ≤ (s.readReg rs1).significand →
    exec (.div rd rs1 rs2) s = .next { s with status := 0x08#8, running := none }

/-- R191, R192: the zero divisor comes first and writes the sentinel with DZ; a zero dividend gives true zero. -/
def Obligations.DivZeroOperands : Prop :=
  ∀ (rd rs1 rs2 : RegIndex) (s : State),
    ((∀ k, (hk : k < 14) → (s.readReg rs2).mant[k] = 0) →
      exec (.div rd rs1 rs2) s =
        .next { s with dr := s.dr.set rd.val
                         ⟨(s.readReg rs1).sign ^^ (s.readReg rs2).sign, Vector.replicate 14 0, 0#8⟩ rd.isLt,
                       status := 0x01#8, running := none }) ∧
    ((¬ ∀ k, (hk : k < 14) → (s.readReg rs2).mant[k] = 0) → (∀ k, (hk : k < 14) → (s.readReg rs1).mant[k] = 0) →
      exec (.div rd rs1 rs2) s =
        .next { s with dr := s.dr.set rd.val ⟨false, Vector.replicate 14 0, 128#8⟩ rd.isLt, status := 0x00#8,
                       running := none })

/-- R199: the quotient buffer is the floor of X * 10^15 / Y. -/
def Obligations.DivQuotientIsFloor : Prop :=
  ∀ x y : Register, y.significand ≠ 0 → x.significand < 10 * y.significand →
    ∃ q, divQuotient x y = some q ∧ q.length = 16 ∧ digitsNat q = x.significand * 10 ^ 15 / y.significand

/-- R199: the quotient is the exact one truncated to 14 significant digits. The value of an operand with e = 0 is
log 17's (DEDUCED). -/
def Obligations.DivTruncates : Prop :=
  ∀ x y : Register, x.mant[0] ≠ 0 → y.mant[0] ≠ 0 →
    ∃ r ov, divide x y = .value r false ov ∧ TruncationOf r ov (x.value / y.value)

/-- R199: DIV by one gives every x with a nonzero leading digit back; OV where its exponent is 0. -/
def Obligations.DivByOneIsIdentity : Prop :=
  ∀ x : Register, x.mant[0] ≠ 0 → divide x Register.one = .value x false (decide (x.exp = 0#8))

/-- R200: a register divided by itself gives one, or the DZ sentinel where it is zero. -/
def Obligations.DivOfItself : Prop :=
  ∀ (rd r : RegIndex) (s : State),
    exec (.div rd r r) s =
      if ∀ k, (hk : k < 14) → (s.readReg r).mant[k] = 0 then
        .next { s with dr := s.dr.set rd.val ⟨false, Vector.replicate 14 0, 0#8⟩ rd.isLt, status := 0x01#8,
                       running := none }
      else
        .next { s with dr := s.dr.set rd.val Register.one rd.isLt, status := 0x00#8, running := none }

/-! ## Every command -/

/-- R121, R159, R181, R201: the source's four worked examples, into any register of any state. -/
def Obligations.SourceWorkedExamples : Prop :=
  ∀ (rd rs1 rs2 : RegIndex) (s : State),
    ((List.finRange 16).map (fun k => s.readByte k) = 0x20#8 :: 0x31#8 :: List.replicate 14 0x20#8 →
      exec (.parse rd) s =
        .next { s with dr := s.dr.set rd.val ⟨false, mantissaOf [1], 128#8⟩ rd.isLt, status := 0x00#8,
                       running := none }) ∧
    (s.readReg rs1 = ⟨false, mantissaOf [1], 128#8⟩ →
      exec (.add rd rs1 rs1) s =
        .next { s with dr := s.dr.set rd.val ⟨false, mantissaOf [2], 128#8⟩ rd.isLt, status := 0x00#8,
                       running := none }) ∧
    (s.readReg rs1 = ⟨false, mantissaOf [9], 128#8⟩ →
      exec (.mul rd rs1 rs1) s =
        .next { s with dr := s.dr.set rd.val ⟨false, mantissaOf [8, 1], 129#8⟩ rd.isLt, status := 0x00#8,
                       running := none }) ∧
    (s.readReg rs1 = ⟨false, mantissaOf [1], 128#8⟩ → s.readReg rs2 = ⟨false, mantissaOf [], 128#8⟩ →
      exec (.div rd rs1 rs2) s =
        .next { s with dr := s.dr.set rd.val ⟨false, mantissaOf [], 0#8⟩ rd.isLt, status := 0x01#8,
                       running := none })

/-- R20, R32, R215: the frame of all five commands (PARSE, ADD, SUB, MUL, DIV): only the destination register and STATUS
may change, and the command is over; on PE and INV not even the destination changes. No command stores to IBUF. -/
def Obligations.CommandFrame : Prop :=
  ∀ (i : Instr) (s t : State), exec i s = .next t →
    (∀ k : RegIndex, k ≠ i.dest → t.readReg k = s.readReg k) ∧
      (t.status = 0x04#8 ∨ t.status = 0x08#8 → t.dr = s.dr) ∧
      (∀ k : ByteIndex, t.readByte k = s.readByte k) ∧ t.ibuf = s.ibuf ∧ t.running = none ∧
      t.held = s.held ∧ t.script = s.script ∧ t.replies = s.replies ∧ t.issued = s.issued

/-- R211, R217: the values of STATUS each command can leave; DZ comes from DIV alone, PE from PARSE alone, and no two
flags stand together. -/
def Obligations.CommandStatusValues : Prop :=
  ∀ (s t : State) (rd rs1 rs2 : RegIndex),
    (exec (.parse rd) s = .next t → t.status ∈ [0x00#8, 0x04#8]) ∧
      (exec (.add rd rs1 rs2) s = .next t → t.status ∈ [0x00#8, 0x02#8]) ∧
      (exec (.sub rd rs1 rs2) s = .next t → t.status ∈ [0x00#8, 0x02#8]) ∧
      (exec (.mul rd rs1 rs2) s = .next t → t.status ∈ [0x00#8, 0x02#8]) ∧
      (exec (.div rd rs1 rs2) s = .next t → t.status ∈ [0x00#8, 0x01#8, 0x02#8, 0x08#8])

/-- R41, R29, R28: an arithmetic command's outcome depends on its two operand registers alone. -/
def Obligations.ArithmeticDependsOnOperandsAlone : Prop :=
  ∀ (rd a b : RegIndex) (s u t w : State), s.readReg a = u.readReg a → s.readReg b = u.readReg b →
    ∀ i ∈ [Instr.add rd a b, .sub rd a b, .mul rd a b, .div rd a b],
      exec i s = .next t → exec i u = .next w →
      t.status = w.status ∧ (t.status ≠ 0x08#8 → t.readReg rd = w.readReg rd)

/-! ## Invariants -/

/-- The model's memory form (log 1): every step keeps IBUF in its canonical form. -/
def Obligations.StepKeepsIbufCanonical : Prop :=
  ∀ s t : State, Memory.wf s.ibuf = true → step s = .next t → Memory.wf t.ibuf = true

/-- R33, R217: every step keeps the registers in their four classes, STATUS among its reachable values (INV not one of
them), and IBUF canonical. -/
def Obligations.StepKeepsRegisterClasses : Prop :=
  ∀ s t : State, s.Inv → step s = .next t → t.Inv

/-- R30, R33: the state right after reset has the invariant. -/
def Obligations.ResetHasRegisterClasses : Prop := State.reset.Inv

/-- R33, R210, R214: from reset, whatever the host does, every step answers a next state and every state reached has the
invariant: no register leaves its four classes and INV is never signalled. -/
def Obligations.ReachableStatesKeepRegisterClasses : Prop :=
  ∀ (program : List HostOp) (n : Nat),
    ∃ t : State, runSteps n { State.reset with script := program } = .next t ∧ t.Inv
end

