-- ==== Sys2Proof/Laws/Memory.lean ====
section
/-! SUPPORT. IBUF as canonical cells: every operation keeps the form, a write is read back, and no other byte changes. -/

namespace Sys2Proof.Machine

theorem Memory.wfFrom_cons {low a : Nat} {v : Byte} {rest : Memory} :
    Memory.wfFrom low ((a, v) :: rest) = true ↔
      low ≤ a ∧ a < 16 ∧ v ≠ unlistedByte ∧ Memory.wfFrom (a + 1) rest = true := by
  simp [Memory.wfFrom, and_assoc]

theorem Memory.wfFrom_mono {low low' : Nat} {m : Memory} (h : Memory.wfFrom low m = true) (hl : low' ≤ low) :
    Memory.wfFrom low' m = true := by
  cases m with
  | nil => rfl
  | cons c rest =>
    obtain ⟨a, v⟩ := c
    rw [Memory.wfFrom_cons] at h ⊢
    exact ⟨hl.trans h.1, h.2⟩

/-- Below its first possible index a canonical memory lists nothing. -/
theorem Memory.read_below {low k : Nat} {m : Memory} (h : Memory.wfFrom low m = true) (hk : k < low) :
    Memory.read m k = unlistedByte := by
  induction m generalizing low with
  | nil => rfl
  | cons c rest ih =>
    obtain ⟨a, v⟩ := c
    rw [Memory.wfFrom_cons] at h
    rw [Memory.read, if_neg (by omega)]
    exact ih h.2.2.2 (by omega)

/-- A write keeps the canonical form. -/
theorem Memory.wfFrom_write {low k : Nat} {m : Memory} (v : Byte) (h : Memory.wfFrom low m = true) (hl : low ≤ k)
    (hk : k < 16) : Memory.wfFrom low (Memory.write m k v) = true := by
  induction m generalizing low with
  | nil =>
    rw [Memory.write]
    split
    · rfl
    · rw [Memory.wfFrom_cons]; exact ⟨hl, hk, ‹_›, rfl⟩
  | cons c rest ih =>
    obtain ⟨a, w⟩ := c
    have hc := Memory.wfFrom_cons.mp h
    rw [Memory.write]
    split
    · split
      · exact h
      · rw [Memory.wfFrom_cons, Memory.wfFrom_cons]
        exact ⟨hl, hk, ‹_›, by omega, hc.2⟩
    · split
      · split
        · exact Memory.wfFrom_mono hc.2.2.2 (by omega)
        · rw [Memory.wfFrom_cons]
          exact ⟨hl, hk, ‹_›, by subst k; exact hc.2.2.2⟩
      · rw [Memory.wfFrom_cons]
        exact ⟨hc.1, hc.2.1, hc.2.2.1, ih hc.2.2.2 (by omega)⟩

theorem Memory.wf_write {m : Memory} {k : Nat} (v : Byte) (h : Memory.wf m = true) (hk : k < 16) :
    Memory.wf (Memory.write m k v) = true :=
  Memory.wfFrom_write v h (Nat.zero_le k) hk

theorem Memory.wf_nil : Memory.wf [] = true := rfl

theorem Memory.wfFrom_read_write {low k : Nat} {m : Memory} (v : Byte) (h : Memory.wfFrom low m = true) (j : Nat) :
    Memory.read (Memory.write m k v) j = if j = k then v else Memory.read m j := by
  induction m generalizing low with
  | nil =>
    rw [Memory.write]
    by_cases hv : v = unlistedByte <;> by_cases hj : j = k
    · simp [hv, hj, Memory.read]
    · simp [hv, hj, Memory.read]
    · simp [hv, hj, Memory.read]
    · simp [hv, hj, Ne.symm hj, Memory.read]
  | cons c rest ih =>
    obtain ⟨a, w⟩ := c
    have hc := Memory.wfFrom_cons.mp h
    rw [Memory.write]
    split
    · have hb : Memory.read ((a, w) :: rest) k = unlistedByte :=
        Memory.read_below (Memory.wfFrom_cons.mpr ⟨le_refl a, hc.2⟩) ‹_›
      by_cases hj : j = k
      · subst j
        split
        · rw [hb, if_pos rfl]; exact Eq.symm ‹_›
        · simp [Memory.read]
      · rw [if_neg hj]
        split
        · rfl
        · rw [Memory.read, if_neg (Ne.symm hj)]
    · split
      · subst k
        by_cases hj : j = a
        · subst j
          split
          · rw [if_pos rfl, Memory.read_below hc.2.2.2 (Nat.lt_succ_self _)]; exact Eq.symm ‹_›
          · simp [Memory.read]
        · split <;> simp [Memory.read, Ne.symm hj]
      · rw [Memory.read, Memory.read, ih hc.2.2.2]
        by_cases hja : a = j
        · rw [if_pos hja, if_pos hja, if_neg (by omega)]
        · rw [if_neg hja, if_neg hja]

/-- A written byte reads as written. -/
theorem Memory.read_write_same {m : Memory} (h : Memory.wf m = true) (k : Nat) (v : Byte) :
    Memory.read (Memory.write m k v) k = v := by
  rw [Memory.wfFrom_read_write v h, if_pos rfl]

/-- A write leaves every other byte as it was. -/
theorem Memory.read_write_other {m : Memory} (h : Memory.wf m = true) {k j : Nat} (v : Byte) (hj : j ≠ k) :
    Memory.read (Memory.write m k v) j = Memory.read m j := by
  rw [Memory.wfFrom_read_write v h, if_neg hj]

/-- Equal memories are equal data: two canonical memories that read the same everywhere are the same list. -/
theorem Memory.wfFrom_ext {low low' : Nat} {m n : Memory} (hm : Memory.wfFrom low m = true)
    (hn : Memory.wfFrom low' n = true) (h : ∀ k, Memory.read m k = Memory.read n k) : m = n := by
  induction m generalizing low low' n with
  | nil =>
    cases n with
    | nil => rfl
    | cons c rest =>
      obtain ⟨a, v⟩ := c
      have := h a
      simp only [Memory.read, if_pos] at this
      exact absurd this.symm (Memory.wfFrom_cons.mp hn).2.2.1
  | cons c rest ih =>
    obtain ⟨a, v⟩ := c
    have hc := Memory.wfFrom_cons.mp hm
    cases n with
    | nil =>
      have := h a
      simp only [Memory.read, if_pos] at this
      exact absurd this hc.2.2.1
    | cons d rest' =>
      obtain ⟨b, w⟩ := d
      have hd := Memory.wfFrom_cons.mp hn
      have hab : a = b := by
        rcases Nat.lt_trichotomy a b with hlt | heq | hgt
        · have h1 := h a
          rw [Memory.read_below (Memory.wfFrom_cons.mpr ⟨le_refl b, hd.2⟩) hlt, Memory.read, if_pos rfl] at h1
          exact absurd h1 hc.2.2.1
        · exact heq
        · have h1 := h b
          rw [Memory.read_below (Memory.wfFrom_cons.mpr ⟨le_refl a, hc.2⟩) hgt, Memory.read, if_pos rfl] at h1
          exact absurd h1.symm hd.2.2.1
      subst b
      have hvw : v = w := by simpa [Memory.read] using h a
      subst w
      have hrest : rest = rest' := by
        refine ih hc.2.2.2 hd.2.2.2 fun k => ?_
        by_cases hk : a = k
        · rw [Memory.read_below hc.2.2.2 (by omega), Memory.read_below hd.2.2.2 (by omega)]
        · simpa [Memory.read, hk] using h k
      rw [hrest]

end Sys2Proof.Machine
end

