-- ==== Sys2Proof/Laws/PerInstr.lean ====
section
/-! SUPPORT. One lemma per constructor of `Instr`: the encoded word carries its opcode-table row's fixed bits, and its
fields read back as the instruction's operands (30_encoding.md R60, R63). -/

namespace Sys2Proof.Laws.EncodingFits

/-- The word of `i` agrees with its row's match under its row's mask (R63), and its field `rd` is the destination. -/
def Statement (i : Instr) : Prop :=
  i.wellFormed = true ∧ rdField (encode i) = i.dest ∧
    match i with
    | .parse _ => encode i &&& 0xF0FF#16 = 0x1000#16
    | .add _ rs1 rs2 => encode i &&& 0xF000#16 = 0x2000#16 ∧ rs1Field (encode i) = rs1 ∧ rs2Field (encode i) = rs2
    | .sub _ rs1 rs2 => encode i &&& 0xF000#16 = 0x3000#16 ∧ rs1Field (encode i) = rs1 ∧ rs2Field (encode i) = rs2
    | .mul _ rs1 rs2 => encode i &&& 0xF000#16 = 0x4000#16 ∧ rs1Field (encode i) = rs1 ∧ rs2Field (encode i) = rs2
    | .div _ rs1 rs2 => encode i &&& 0xF000#16 = 0x5000#16 ∧ rs1Field (encode i) = rs1 ∧ rs2Field (encode i) = rs2

theorem opField_assemble (op : BitVec 4) (rd rs1 rs2 : RegIndex) : opField (assemble op rd rs1 rs2) = op := by
  apply BitVec.eq_of_getLsbD_eq
  intro i hi
  have : i = 0 ∨ i = 1 ∨ i = 2 ∨ i = 3 := by omega
  rcases this with rfl | rfl | rfl | rfl <;> simp [opField, assemble]

theorem rdField_assemble (op : BitVec 4) (rd rs1 rs2 : RegIndex) : rdField (assemble op rd rs1 rs2) = rd := by
  have h : (assemble op rd rs1 rs2).extractLsb' 8 4 = indexField rd := by
    apply BitVec.eq_of_getLsbD_eq
    intro i hi
    have : i = 0 ∨ i = 1 ∨ i = 2 ∨ i = 3 := by omega
    rcases this with rfl | rfl | rfl | rfl <;> simp [assemble]
  exact congrArg BitVec.toFin h

theorem rs1Field_assemble (op : BitVec 4) (rd rs1 rs2 : RegIndex) : rs1Field (assemble op rd rs1 rs2) = rs1 := by
  have h : (assemble op rd rs1 rs2).extractLsb' 4 4 = indexField rs1 := by
    apply BitVec.eq_of_getLsbD_eq
    intro i hi
    have : i = 0 ∨ i = 1 ∨ i = 2 ∨ i = 3 := by omega
    rcases this with rfl | rfl | rfl | rfl <;> simp [assemble]
  exact congrArg BitVec.toFin h

theorem rs2Field_assemble (op : BitVec 4) (rd rs1 rs2 : RegIndex) : rs2Field (assemble op rd rs1 rs2) = rs2 := by
  have h : (assemble op rd rs1 rs2).extractLsb' 0 4 = indexField rs2 := by
    apply BitVec.eq_of_getLsbD_eq
    intro i hi
    have : i = 0 ∨ i = 1 ∨ i = 2 ∨ i = 3 := by omega
    rcases this with rfl | rfl | rfl | rfl <;> simp [assemble]
  exact congrArg BitVec.toFin h

/-- The mask of an RRR row keeps the opcode field alone (R63). -/
theorem opMask (op : BitVec 4) (rd rs1 rs2 : RegIndex) :
    assemble op rd rs1 rs2 &&& 0xF000#16 = op.setWidth 16 <<< 12 := by
  apply BitVec.eq_of_getLsbD_eq
  intro i hi
  interval_cases i <;> simp [assemble]

theorem parse (rd : RegIndex) : Statement (.parse rd) :=
  ⟨by have := rd.isLt; simp [Instr.wellFormed]; omega, rdField_assemble _ rd 0 0, by revert rd; decide⟩

theorem add (rd rs1 rs2 : RegIndex) : Statement (.add rd rs1 rs2) :=
  ⟨by have := rd.isLt; have := rs1.isLt; have := rs2.isLt; simp [Instr.wellFormed]; omega,
    rdField_assemble _ rd rs1 rs2, opMask 0x2#4 rd rs1 rs2, rs1Field_assemble _ rd rs1 rs2, rs2Field_assemble _ rd rs1 rs2⟩

theorem sub (rd rs1 rs2 : RegIndex) : Statement (.sub rd rs1 rs2) :=
  ⟨by have := rd.isLt; have := rs1.isLt; have := rs2.isLt; simp [Instr.wellFormed]; omega,
    rdField_assemble _ rd rs1 rs2, opMask 0x3#4 rd rs1 rs2, rs1Field_assemble _ rd rs1 rs2, rs2Field_assemble _ rd rs1 rs2⟩

theorem mul (rd rs1 rs2 : RegIndex) : Statement (.mul rd rs1 rs2) :=
  ⟨by have := rd.isLt; have := rs1.isLt; have := rs2.isLt; simp [Instr.wellFormed]; omega,
    rdField_assemble _ rd rs1 rs2, opMask 0x4#4 rd rs1 rs2, rs1Field_assemble _ rd rs1 rs2, rs2Field_assemble _ rd rs1 rs2⟩

theorem div (rd rs1 rs2 : RegIndex) : Statement (.div rd rs1 rs2) :=
  ⟨by have := rd.isLt; have := rs1.isLt; have := rs2.isLt; simp [Instr.wellFormed]; omega,
    rdField_assemble _ rd rs1 rs2, opMask 0x5#4 rd rs1 rs2, rs1Field_assemble _ rd rs1 rs2, rs2Field_assemble _ rd rs1 rs2⟩

end Sys2Proof.Laws.EncodingFits
end

