-- ==== Sys2Proof/Laws/Scratch.lean ====
section
/-! SUPPORT. A scratch buffer is 16 digits long and every operation keeps it so (40_primitives.md R85); what `load`,
`store` and the zero tests give. -/

namespace Sys2Proof.Machine

@[simp] theorem length_load (r : Register) : (load r).length = 16 := by simp [load]

@[simp] theorem length_clear : clear.length = 16 := by simp [clear]

theorem length_shiftRightOne {b : Buf} (h : b.length = 16) : (shiftRightOne b).length = 16 := by
  simp [shiftRightOne, h]

theorem length_shiftRight {b : Buf} (h : b.length = 16) (n : Nat) : (shiftRight b n).length = 16 := by
  induction n with
  | zero => exact h
  | succ n ih => exact length_shiftRightOne ih

theorem length_shiftLeftOne {b : Buf} (h : b.length = 16) : (shiftLeftOne b).length = 16 := by
  simp [shiftLeftOne, h]

theorem length_addBuf (a b : Buf) : (addBuf a b).1.length = min a.length b.length := by
  induction a generalizing b with
  | nil => simp [addBuf]
  | cons d ds ih => cases b <;> simp [addBuf, ih]

theorem length_subBuf (a b : Buf) : (subBuf a b).1.length = min a.length b.length := by
  induction a generalizing b with
  | nil => simp [subBuf]
  | cons d ds ih => cases b <;> simp [subBuf, ih]

@[simp] theorem length_partialProduct (i : Nat) (pp : BitVec 8) : (partialProduct i pp).length = 16 := by
  simp [partialProduct]

@[simp] theorem length_preShift (r : Register) : (preShift r).length = 16 := length_shiftRightOne (length_load r)

theorem length_normalize (n : Nat) {r : Buf} (e : Int) (h : r.length = 16) : (normalize n r e).1.length = 16 := by
  induction n generalizing r e with
  | zero => exact h
  | succ n ih =>
    rw [normalize]
    split
    · exact ih _ (length_shiftLeftOne h)
    · exact h

theorem length_mulRow {mx : List Digit} {yd : Digit} {n : Nat} {acc acc' : Buf} (h : acc.length = 16)
    (hr : mulRow mx yd n acc = some acc') : acc'.length = 16 := by
  induction n generalizing acc with
  | zero => simp only [mulRow, Option.some.injEq] at hr; rw [← hr]; exact h
  | succ n ih =>
    simp only [mulRow] at hr
    split at hr
    · cases hr
    · exact ih (by simp [length_addBuf, h]) hr

theorem length_quotientDigits {b : Buf} {n : Nat} {a q : Buf} (h : quotientDigits b n a = some q) : q.length = n := by
  induction n generalizing a q with
  | zero => simp only [quotientDigits, Option.some.injEq] at h; rw [← h]; rfl
  | succ n ih =>
    simp only [quotientDigits] at h
    split at h
    · cases h
    · split at h
      · cases h
      · simp only [Option.some.injEq] at h
        rw [← h, List.length_cons, ih ‹_›]

/-- Digit `k` of a stored mantissa is digit `k` of the list, or 0 past its end. -/
@[simp] theorem mantissaOf_getElem (ds : List Digit) (k : Nat) (hk : k < 14) : (mantissaOf ds)[k] = ds.getD k 0 := by
  simp [mantissaOf]

theorem toList_getD (m : Mantissa) (k : Nat) (hk : k < 14) : m.toList.getD k 0 = m[k] := by
  rw [List.getD_eq_getElem _ _ (by simpa using hk)]
  simp

/-- `store` gives back what `load` took: only guard digits are dropped (R85). -/
@[simp] theorem store_load (r : Register) : store (load r) = r.mant := by
  apply Vector.ext
  intro k hk
  rw [store, mantissaOf_getElem _ _ hk, load, List.getD_append _ _ _ _ (by simpa using hk), toList_getD _ _ hk]

theorem isZero_iff {b : Buf} : isZero b = true ↔ ∀ d ∈ b, d = 0 := by simp [isZero]

theorem regIsZero_iff {r : Register} : regIsZero r = true ↔ ∀ k, (hk : k < 14) → r.mant[k] = 0 := by
  rw [regIsZero, isZero_iff]
  constructor
  · intro h k hk
    exact h _ (by simp)
  · intro h d hd
    obtain ⟨k, hk, rfl⟩ := List.mem_iff_getElem.mp hd
    simpa using h k (by simpa using hk)

theorem digitsNat_cons (d : Digit) (ds : List Digit) : digitsNat (d :: ds) = d.val * 10 ^ ds.length + digitsNat ds := rfl

/-- A digit sequence of length n stands for a number below 10^n. -/
theorem digitsNat_lt (ds : List Digit) : digitsNat ds < 10 ^ ds.length := by
  induction ds with
  | nil => simp [digitsNat]
  | cons d ds ih =>
    have hd : d.val ≤ 9 := by omega
    have : d.val * 10 ^ ds.length ≤ 9 * 10 ^ ds.length := Nat.mul_le_mul_right _ hd
    rw [digitsNat_cons, List.length_cons, Nat.pow_succ]
    omega

end Sys2Proof.Machine
end

