-- ==== Sys2Proof/Laws/State.lean ====
section
/-! SUPPORT. What each update of the state leaves in each field, and the reads of a written register. -/

namespace Sys2Proof.Machine

@[simp] theorem State.writeReg_dr (s : State) (i : RegIndex) (r : Register) : (s.writeReg i r).dr = s.dr.set i.val r i.isLt := rfl
@[simp] theorem State.writeReg_status (s : State) (i : RegIndex) (r : Register) : (s.writeReg i r).status = s.status := rfl
@[simp] theorem State.writeReg_ibuf (s : State) (i : RegIndex) (r : Register) : (s.writeReg i r).ibuf = s.ibuf := rfl
@[simp] theorem State.writeReg_running (s : State) (i : RegIndex) (r : Register) : (s.writeReg i r).running = s.running := rfl
@[simp] theorem State.writeReg_held (s : State) (i : RegIndex) (r : Register) : (s.writeReg i r).held = s.held := rfl
@[simp] theorem State.writeReg_script (s : State) (i : RegIndex) (r : Register) : (s.writeReg i r).script = s.script := rfl
@[simp] theorem State.writeReg_replies (s : State) (i : RegIndex) (r : Register) : (s.writeReg i r).replies = s.replies := rfl
@[simp] theorem State.writeReg_issued (s : State) (i : RegIndex) (r : Register) : (s.writeReg i r).issued = s.issued := rfl

@[simp] theorem State.writeByte_dr (s : State) (k : ByteIndex) (v : Byte) : (s.writeByte k v).dr = s.dr := rfl
@[simp] theorem State.writeByte_status (s : State) (k : ByteIndex) (v : Byte) : (s.writeByte k v).status = s.status := rfl
@[simp] theorem State.writeByte_ibuf (s : State) (k : ByteIndex) (v : Byte) : (s.writeByte k v).ibuf = Memory.write s.ibuf k.val v := rfl
@[simp] theorem State.writeByte_running (s : State) (k : ByteIndex) (v : Byte) : (s.writeByte k v).running = s.running := rfl
@[simp] theorem State.writeByte_held (s : State) (k : ByteIndex) (v : Byte) : (s.writeByte k v).held = s.held := rfl
@[simp] theorem State.writeByte_script (s : State) (k : ByteIndex) (v : Byte) : (s.writeByte k v).script = s.script := rfl
@[simp] theorem State.writeByte_replies (s : State) (k : ByteIndex) (v : Byte) : (s.writeByte k v).replies = s.replies := rfl
@[simp] theorem State.writeByte_issued (s : State) (k : ByteIndex) (v : Byte) : (s.writeByte k v).issued = s.issued := rfl

@[simp] theorem State.complete_dr (s : State) (rd : RegIndex) (r : Register) (st : BitVec 8) : (s.complete rd r st).dr = s.dr.set rd.val r rd.isLt := rfl
@[simp] theorem State.complete_status (s : State) (rd : RegIndex) (r : Register) (st : BitVec 8) : (s.complete rd r st).status = st := rfl
@[simp] theorem State.complete_ibuf (s : State) (rd : RegIndex) (r : Register) (st : BitVec 8) : (s.complete rd r st).ibuf = s.ibuf := rfl
@[simp] theorem State.complete_running (s : State) (rd : RegIndex) (r : Register) (st : BitVec 8) : (s.complete rd r st).running = none := rfl
@[simp] theorem State.complete_held (s : State) (rd : RegIndex) (r : Register) (st : BitVec 8) : (s.complete rd r st).held = s.held := rfl
@[simp] theorem State.complete_script (s : State) (rd : RegIndex) (r : Register) (st : BitVec 8) : (s.complete rd r st).script = s.script := rfl
@[simp] theorem State.complete_replies (s : State) (rd : RegIndex) (r : Register) (st : BitVec 8) : (s.complete rd r st).replies = s.replies := rfl
@[simp] theorem State.complete_issued (s : State) (rd : RegIndex) (r : Register) (st : BitVec 8) : (s.complete rd r st).issued = s.issued := rfl

@[simp] theorem State.signalOnly_dr (s : State) (st : BitVec 8) : (s.signalOnly st).dr = s.dr := rfl
@[simp] theorem State.signalOnly_status (s : State) (st : BitVec 8) : (s.signalOnly st).status = st := rfl
@[simp] theorem State.signalOnly_ibuf (s : State) (st : BitVec 8) : (s.signalOnly st).ibuf = s.ibuf := rfl
@[simp] theorem State.signalOnly_running (s : State) (st : BitVec 8) : (s.signalOnly st).running = none := rfl
@[simp] theorem State.signalOnly_held (s : State) (st : BitVec 8) : (s.signalOnly st).held = s.held := rfl
@[simp] theorem State.signalOnly_script (s : State) (st : BitVec 8) : (s.signalOnly st).script = s.script := rfl
@[simp] theorem State.signalOnly_replies (s : State) (st : BitVec 8) : (s.signalOnly st).replies = s.replies := rfl
@[simp] theorem State.signalOnly_issued (s : State) (st : BitVec 8) : (s.signalOnly st).issued = s.issued := rfl

@[simp] theorem State.resetBlock_dr (s : State) : (s.resetBlock).dr = State.reset.dr := rfl
@[simp] theorem State.resetBlock_status (s : State) : (s.resetBlock).status = 0x00#8 := rfl
@[simp] theorem State.resetBlock_ibuf (s : State) : (s.resetBlock).ibuf = [] := rfl
@[simp] theorem State.resetBlock_running (s : State) : (s.resetBlock).running = none := rfl
@[simp] theorem State.resetBlock_held (s : State) : (s.resetBlock).held = s.held := rfl
@[simp] theorem State.resetBlock_script (s : State) : (s.resetBlock).script = s.script := rfl
@[simp] theorem State.resetBlock_replies (s : State) : (s.resetBlock).replies = s.replies := rfl
@[simp] theorem State.resetBlock_issued (s : State) : (s.resetBlock).issued = s.issued := rfl

@[simp] theorem State.beginCommand_dr (s : State) (c : CommandWord) : (s.beginCommand c).dr = s.dr := rfl
@[simp] theorem State.beginCommand_status (s : State) (c : CommandWord) : (s.beginCommand c).status = s.status := rfl
@[simp] theorem State.beginCommand_ibuf (s : State) (c : CommandWord) : (s.beginCommand c).ibuf = s.ibuf := rfl
@[simp] theorem State.beginCommand_running (s : State) (c : CommandWord) : (s.beginCommand c).running = some ⟨c, Config.extraCycles s.issued⟩ := rfl
@[simp] theorem State.beginCommand_held (s : State) (c : CommandWord) : (s.beginCommand c).held = s.held := rfl
@[simp] theorem State.beginCommand_script (s : State) (c : CommandWord) : (s.beginCommand c).script = s.script := rfl
@[simp] theorem State.beginCommand_replies (s : State) (c : CommandWord) : (s.beginCommand c).replies = s.replies := rfl
@[simp] theorem State.beginCommand_issued (s : State) (c : CommandWord) : (s.beginCommand c).issued = s.issued + 1 := rfl

@[simp] theorem State.reply_dr (s : State) (a : Reply) : (s.reply a).dr = s.dr := rfl
@[simp] theorem State.reply_status (s : State) (a : Reply) : (s.reply a).status = s.status := rfl
@[simp] theorem State.reply_ibuf (s : State) (a : Reply) : (s.reply a).ibuf = s.ibuf := rfl
@[simp] theorem State.reply_running (s : State) (a : Reply) : (s.reply a).running = s.running := rfl
@[simp] theorem State.reply_held (s : State) (a : Reply) : (s.reply a).held = s.held := rfl
@[simp] theorem State.reply_script (s : State) (a : Reply) : (s.reply a).script = s.script := rfl
@[simp] theorem State.reply_replies (s : State) (a : Reply) : (s.reply a).replies = s.replies ++ [a] := rfl
@[simp] theorem State.reply_issued (s : State) (a : Reply) : (s.reply a).issued = s.issued := rfl

@[simp] theorem State.placeWord_dr (s : State) (c : CommandWord) : (s.placeWord c).dr = s.dr := rfl
@[simp] theorem State.placeWord_status (s : State) (c : CommandWord) : (s.placeWord c).status = s.status := rfl
@[simp] theorem State.placeWord_ibuf (s : State) (c : CommandWord) : (s.placeWord c).ibuf = s.ibuf := rfl
@[simp] theorem State.placeWord_running (s : State) (c : CommandWord) : (s.placeWord c).running = some ⟨c, 0⟩ := rfl
@[simp] theorem State.placeWord_held (s : State) (c : CommandWord) : (s.placeWord c).held = s.held := rfl
@[simp] theorem State.placeWord_script (s : State) (c : CommandWord) : (s.placeWord c).script = s.script := rfl
@[simp] theorem State.placeWord_replies (s : State) (c : CommandWord) : (s.placeWord c).replies = s.replies := rfl
@[simp] theorem State.placeWord_issued (s : State) (c : CommandWord) : (s.placeWord c).issued = s.issued := rfl

@[simp] theorem State.readReg_writeReg_same (s : State) (i : RegIndex) (r : Register) :
    (s.writeReg i r).readReg i = r := by
  simp [State.readReg]

theorem State.readReg_writeReg_other (s : State) (i j : RegIndex) (r : Register) (h : j ≠ i) :
    (s.writeReg i r).readReg j = s.readReg j := by
  have h' : i.val ≠ j.val := fun e => h (Fin.ext e.symm)
  simp [State.readReg, h']

@[simp] theorem State.readReg_complete_same (s : State) (rd : RegIndex) (r : Register) (st : BitVec 8) :
    (s.complete rd r st).readReg rd = r := by
  simp [State.readReg]

theorem State.readReg_complete_other (s : State) (rd k : RegIndex) (r : Register) (st : BitVec 8) (h : k ≠ rd) :
    (s.complete rd r st).readReg k = s.readReg k := by
  have h' : rd.val ≠ k.val := fun e => h (Fin.ext e.symm)
  simp [State.readReg, h']

@[simp] theorem State.readReg_signalOnly (s : State) (st : BitVec 8) (k : RegIndex) :
    (s.signalOnly st).readReg k = s.readReg k := rfl

@[simp] theorem State.readReg_reset (k : RegIndex) : State.reset.readReg k = Register.trueZero := by
  simp [State.readReg, State.reset]

@[simp] theorem State.readReg_resetBlock (s : State) (k : RegIndex) :
    s.resetBlock.readReg k = Register.trueZero := State.readReg_reset k

end Sys2Proof.Machine
end

