-- ==== Sys2Proof/Laws/Step.lean ====
section
/-! SUPPORT. What each shared operation, a command and a step can do, said once. -/

namespace Sys2Proof.Machine

/-- The flags of a command that wrote its result: DZ and OV as signalled, no other (R24, R211). -/
theorem flags_statusOf (dz ov : Bool) :
    flagDZ (statusOf dz ov) = dz ∧ flagOV (statusOf dz ov) = ov ∧ flagPE (statusOf dz ov) = false ∧
      flagINV (statusOf dz ov) = false ∧ flagILL (statusOf dz ov) = false := by
  revert dz ov
  decide

/-- PE, INV and ILL each stand alone in the STATUS they are signalled with (R211). -/
theorem flags_signalled :
    flagPE statusPE = true ∧ flagINV statusINV = true ∧ flagILL statusILL = true ∧
      statusPE = 0x04#8 ∧ statusINV = 0x08#8 ∧ statusILL = 0x10#8 := by
  decide

/-- The end of an arithmetic command: its result with its flags, or INV with no register written. -/
theorem State.finish_cases (s : State) (rd : RegIndex) (o : EngineResult) :
    (∃ r dz ov, o = .value r dz ov ∧ s.finish rd o = s.complete rd r (statusOf dz ov)) ∨
      (o = .inv ∧ s.finish rd o = s.signalOnly statusINV) := by
  cases o with
  | value r dz ov => exact .inl ⟨r, dz, ov, rfl, rfl⟩
  | inv => exact .inr ⟨rfl, rfl⟩

/-- What PARSE does: the Register of a well-formed record, or PE with no register written. -/
theorem execParse_cases (rd : RegIndex) (s : State) :
    (wellFormedRecord (operandsR s) = true ∧
        execParse rd s = .next (s.complete rd (parseValue (operandsR s)) (statusOf false false))) ∨
      (wellFormedRecord (operandsR s) = false ∧ execParse rd s = .next (s.signalOnly statusPE)) := by
  cases h : wellFormedRecord (operandsR s)
  · exact .inr ⟨rfl, by simp [execParse, h]⟩
  · exact .inl ⟨rfl, by simp [execParse, h]⟩

/-- Every command answers a next state, and that state is its result in its destination or a STATUS alone. -/
theorem exec_cases (i : Instr) (s : State) :
    (∃ r dz ov, exec i s = .next (s.complete i.dest r (statusOf dz ov))) ∨
      (∃ st, (st = statusPE ∨ st = statusINV) ∧ exec i s = .next (s.signalOnly st)) := by
  cases i with
  | parse rd =>
    rcases execParse_cases rd s with ⟨-, h⟩ | ⟨-, h⟩
    · exact .inl ⟨_, _, _, h⟩
    · exact .inr ⟨_, .inl rfl, h⟩
  | add rd rs1 rs2 =>
    rcases s.finish_cases rd (addsub (s.readReg rs1) (s.readReg rs2) false) with ⟨r, dz, ov, -, h⟩ | ⟨-, h⟩
    · exact .inl ⟨r, dz, ov, congrArg Host.Outcome.next h⟩
    · exact .inr ⟨_, .inr rfl, congrArg Host.Outcome.next h⟩
  | sub rd rs1 rs2 =>
    rcases s.finish_cases rd (addsub (s.readReg rs1) (s.readReg rs2) true) with ⟨r, dz, ov, -, h⟩ | ⟨-, h⟩
    · exact .inl ⟨r, dz, ov, congrArg Host.Outcome.next h⟩
    · exact .inr ⟨_, .inr rfl, congrArg Host.Outcome.next h⟩
  | mul rd rs1 rs2 =>
    rcases s.finish_cases rd (mul (s.readReg rs1) (s.readReg rs2)) with ⟨r, dz, ov, -, h⟩ | ⟨-, h⟩
    · exact .inl ⟨r, dz, ov, congrArg Host.Outcome.next h⟩
    · exact .inr ⟨_, .inr rfl, congrArg Host.Outcome.next h⟩
  | div rd rs1 rs2 =>
    rcases s.finish_cases rd (divide (s.readReg rs1) (s.readReg rs2)) with ⟨r, dz, ov, -, h⟩ | ⟨-, h⟩
    · exact .inl ⟨r, dz, ov, congrArg Host.Outcome.next h⟩
    · exact .inr ⟨_, .inr rfl, congrArg Host.Outcome.next h⟩

/-- A command word that takes effect is a command, or ILL alone. -/
theorem runWord_cases (c : CommandWord) (s : State) :
    (∃ i, decode c = .ok i ∧ runWord c s = exec i s) ∨
      (∃ e, decode c = .error e ∧ runWord c s = .next (s.signalOnly statusILL)) := by
  cases h : decode c with
  | ok i => exact .inl ⟨i, rfl, by simp [runWord, h]⟩
  | error e => exact .inr ⟨e, rfl, by simp [runWord, h]⟩

/-- A host operation that takes effect changes neither what is held nor what the host has yet to do. -/
@[simp] theorem State.perform_held (s : State) (op : HostOp) : (s.perform op).held = s.held := by cases op <;> rfl

@[simp] theorem State.perform_script (s : State) (op : HostOp) : (s.perform op).script = s.script := by cases op <;> rfl

theorem State.foldl_perform_held (ops : List HostOp) (s : State) : (ops.foldl State.perform s).held = s.held := by
  induction ops generalizing s with
  | nil => rfl
  | cons op ops ih => rw [List.foldl_cons, ih, State.perform_held]

theorem State.foldl_perform_script (ops : List HostOp) (s : State) : (ops.foldl State.perform s).script = s.script := by
  induction ops generalizing s with
  | nil => rfl
  | cons op ops ih => rw [List.foldl_cons, ih, State.perform_script]

@[simp] theorem State.releaseHeld_held (s : State) : s.releaseHeld.held = [] := State.foldl_perform_held _ _

@[simp] theorem State.releaseHeld_script (s : State) : s.releaseHeld.script = s.script := State.foldl_perform_script _ _

/-- A host operation arriving during a command: RESET takes effect after what was held, every other is held. -/
theorem State.arrive_cases (s : State) (op : HostOp) :
    (op = .reset ∧ s.arrive op = s.releaseHeld.resetBlock) ∨
      (op ≠ .reset ∧ s.arrive op = { s with held := s.held ++ [op] }) := by
  cases op with
  | reset => exact .inl ⟨rfl, rfl⟩
  | writeIbuf k v => exact .inr ⟨by simp, rfl⟩
  | readIbuf k => exact .inr ⟨by simp, rfl⟩
  | issue c => exact .inr ⟨by simp, rfl⟩
  | readReg r => exact .inr ⟨by simp, rfl⟩
  | readStatus => exact .inr ⟨by simp, rfl⟩

/-- A waiting step: the countdown falls, and at most one host operation arrives. -/
theorem State.waitCycle_cases (s : State) (c : CommandWord) (n : Nat) :
    (s.script = [] ∧ s.waitCycle c n = { s with running := some ⟨c, n⟩ }) ∨
      (∃ op rest, s.script = op :: rest ∧
        s.waitCycle c n = State.arrive { s with running := some ⟨c, n⟩, script := rest } op) := by
  cases h : s.script with
  | nil => exact .inl ⟨rfl, by simp [State.waitCycle, h]⟩
  | cons op rest => exact .inr ⟨op, rest, rfl, by simp [State.waitCycle, h]⟩

/-- With no command running: the oldest held operation, else the host's next, else nothing. -/
theorem State.serveHost_cases (s : State) :
    (∃ op rest, s.held = op :: rest ∧ s.serveHost = State.perform { s with held := rest } op) ∨
      (∃ op rest, s.held = [] ∧ s.script = op :: rest ∧ s.serveHost = State.perform { s with script := rest } op) ∨
      (s.held = [] ∧ s.script = [] ∧ s.serveHost = s) := by
  cases h : s.held with
  | cons op rest => exact .inl ⟨op, rest, rfl, by simp [State.serveHost, h]⟩
  | nil =>
    cases h' : s.script with
    | cons op rest => exact .inr (.inl ⟨op, rest, rfl, rfl, by simp [State.serveHost, h, h']⟩)
    | nil => exact .inr (.inr ⟨rfl, rfl, by simp [State.serveHost, h, h']⟩)

/-- Everything a step can do. -/
theorem step_cases (s : State) :
    (s.running = none ∧ step s = .next s.serveHost) ∨
      (∃ c, s.running = some ⟨c, 0⟩ ∧ step s = runWord c s) ∨
      (∃ c n, s.running = some ⟨c, n + 1⟩ ∧ step s = .next (s.waitCycle c n)) := by
  cases h : s.running with
  | none => exact .inl ⟨rfl, by simp [step, advance, h]⟩
  | some r =>
    obtain ⟨c, n⟩ := r
    cases n with
    | zero => exact .inr (.inl ⟨c, rfl, by simp [step, advance, h]⟩)
    | succ n => exact .inr (.inr ⟨c, n, rfl, by simp [step, advance, h]⟩)

/-- A run goes on from the state its first step answers. -/
theorem core_run_succ (M : Host.Core) (k : Nat) (s t : M.State) (h : M.step s = .next t) :
    M.run (k + 1) s = M.run k t := by
  simp only [Host.Core.run, h]

/-- A run of one step is the step. -/
theorem core_run_one (M : Host.Core) (s : M.State) : M.run 1 s = M.step s := by
  rw [show (1 : Nat) = 0 + 1 from rfl]
  simp only [Host.Core.run]
  cases M.step s <;> rfl

theorem runSteps_succ_of_step {s t : State} (k : Nat) (h : step s = .next t) : runSteps (k + 1) s = runSteps k t :=
  core_run_succ Sys2Proof.core k s t h

theorem runSteps_one (s : State) : runSteps 1 s = step s := core_run_one Sys2Proof.core s

@[simp] theorem runSteps_zero (s : State) : runSteps 0 s = .next s := rfl

end Sys2Proof.Machine
end

