-- ==== Sys2Proof/Tests/Slice0.lean ====
section
/-! SUPPORT. The model's own tests: the checks of WellFormed and Decode, one-step tests on the spec's vectors
(95_test_vectors.md), and a witness for the hypotheses of every statement that has some. -/

namespace Sys2Proof.Tests

open Sys2Proof.Machine

-- One theorem at a time: checking this file's many small theorems at once would start a thread for each.
set_option Elab.async false

/-- A register `(s, digits, e)`, zero-filled to 14 digits, as 95_test_vectors.md writes it. -/
def reg (s : Bool) (ds : List Digit) (e : Nat) : Register := ⟨s, mantissaOf ds, BitVec.ofNat 8 e⟩

/-- The reset state with `x` in d1 and `y` in d2. -/
def withXY (x y : Register) : State := { State.reset with dr := (State.reset.dr.set 1 x).set 2 y }

/-- The bytes of a 16-character record, padded with spaces. -/
def record (bs : List Nat) : List Byte := ((bs ++ List.replicate 16 0x20).take 16).map (BitVec.ofNat 8)

/-- The reset state with a record in IBUF. -/
def withRecord (bs : List Nat) : State :=
  { State.reset with ibuf := (List.finRange 16).foldl (fun m k => Memory.write m k.val (charAt (record bs) k.val)) [] }

/-- Register `r` and STATUS after one command. -/
def after (i : Instr) (s : State) (r : RegIndex) : Option (Register × BitVec 8) :=
  match exec i s with
  | .next t => some (t.readReg r, t.status)
  | _ => none

/-! ## Well-formedness and decoding -/

-- R66: the check refuses each kind of reserved word. No ill-formed `Instr` can be written down (R62).
theorem test_reserved_op_zero : reservedWord 0x0000#16 = true := by decide
theorem test_reserved_op_six : reservedWord 0x6123#16 = true := by decide
theorem test_reserved_op_fifteen : reservedWord 0xFFFF#16 = true := by decide
theorem test_reserved_parse_rs2 : reservedWord 0x1001#16 = true := by decide
theorem test_reserved_parse_rs1 : reservedWord 0x10F0#16 = true := by decide
theorem test_not_reserved_parse : reservedWord 0x1F00#16 = false := by decide
theorem test_not_reserved_div : reservedWord 0x5FFF#16 = false := by decide
theorem test_wellFormed_highest_indices : (Instr.div 15 15 15).wellFormed = true := by decide

-- 95_test_vectors.md 2.8, E1 to E11, bit by bit from R63.
theorem test_decode_parse : decode 0b0001_1111_0000_0000#16 = .ok (.parse 15) := by rfl
theorem test_decode_add : decode 0b0010_0000_0001_0010#16 = .ok (.add 0 1 2) := by rfl
theorem test_decode_sub : decode 0b0011_0010_0000_0001#16 = .ok (.sub 2 0 1) := by rfl
theorem test_decode_mul : decode 0b0100_0011_0011_0011#16 = .ok (.mul 3 3 3) := by rfl
theorem test_decode_div : decode 0b0101_0011_0010_0000#16 = .ok (.div 3 2 0) := by rfl
theorem test_decode_reserved_op : decode 0x6123#16 = .error (.reservedOpcode 0x6#4) := by rfl
theorem test_decode_reserved_parse : decode 0x10F0#16 = .error (.parseSources 0xF0#8) := by rfl
theorem test_encode_sub : encode (.sub 2 0 1) = 0x3201#16 := by decide
theorem test_decodeTableWord : decodeTableWord 16 0x5504 = some (.div 5 0 4) := by rfl
theorem test_step_runs_table_word :
    step (State.reset.withFetchWord 16 0x3201) = exec (.sub 2 0 1) (State.reset.withFetchWord 16 0x3201) := by rfl

/-! ## One-step tests -/

-- Q13 and Q20 of 95_test_vectors.md 2.4.
theorem test_parse_point_and_exponent :
    after (.parse 1) (withRecord [0x20, 0x31, 0x32, 0x2E, 0x35, 0x20, 0x20, 0x20, 0x20, 0x20, 0x20, 0x20, 0x45, 0x2D, 0x30,
      0x31]) 1 = some (reg false [1, 2, 5] 128, 0x00#8) := by decide +kernel
theorem test_parse_bad_exponent_sign :
    after (.parse 1) (withRecord [0x20, 0x31, 0x20, 0x20, 0x20, 0x20, 0x20, 0x20, 0x20, 0x20, 0x20, 0x20, 0x45, 0x30, 0x35,
      0x20]) 1 = some (Register.trueZero, 0x04#8) := by decide +kernel

-- A7 and A10 of 2.5.
theorem test_add_carry :
    after (.add 3 1 2) (withXY (reg false (List.replicate 14 9) 128) (reg false (List.replicate 14 9) 128)) 3 =
      some (reg false (1 :: List.replicate 13 9) 129, 0x00#8) := by decide +kernel
theorem test_add_swapped :
    after (.add 3 1 2) (withXY (reg true [2] 128) (reg false [3] 128)) 3 = some (reg false [1] 128, 0x00#8) := by
  decide +kernel

-- A25 and A26 of 2.5.
theorem test_sub_lost_digit :
    after (.sub 3 1 2) (withXY (reg false [1] 128) (reg false [1, 0, 0, 0, 0, 0, 0, 0, 0, 0, 0, 0, 0, 1] 125)) 3 =
      some (reg false [9, 9, 9] 127, 0x00#8) := by decide +kernel
theorem test_sub_underflow :
    after (.sub 1 1 2) (withXY (reg false [1, 5] 1) (reg false [1] 1)) 1 = some (reg false [5] 0, 0x02#8) := by
  decide +kernel

-- M6 and M13 of 2.6.
theorem test_mul_overflow :
    after (.mul 1 1 2) (withXY (reg false [9, 9] 227) (reg false [9, 9] 227)) 1 =
      some (reg false [9, 8, 0, 1] 71, 0x02#8) := by decide +kernel
theorem test_mul_truncates :
    after (.mul 3 1 2) (withXY (reg false [1, 2, 3, 4, 5, 6, 7, 8, 9, 0, 1, 2, 3, 4] 128)
      (reg false [9, 8, 7, 6, 5, 4, 3, 2, 1, 0, 9, 8, 7, 6] 128)) 3 =
      some (reg false [1, 2, 1, 9, 3, 2, 6, 3, 1, 1, 3, 7, 0, 1] 129, 0x00#8) := by decide +kernel

-- D13 and D4 of 2.7.
theorem test_div_one_seventh :
    after (.div 3 1 2) (withXY (reg false [1] 128) (reg false [7] 128)) 3 =
      some (reg false [1, 4, 2, 8, 5, 7, 1, 4, 2, 8, 5, 7, 1, 4] 127, 0x00#8) := by decide +kernel
theorem test_div_by_sentinel :
    after (.div 3 1 2) (withXY Register.trueZero (reg true [] 0)) 3 = some (reg true [] 0, 0x01#8) := by decide +kernel

-- P1's end state, d3: 95_test_vectors.md section 3.
theorem test_port_word : (reg false [8, 1] 129).pack = 0x08100000000000081#65 := by decide +kernel
-- P4's end state, d5: a negative register.
theorem test_port_word_negative : (reg true [1, 1, 2, 5] 129).pack = 0x11125000000000081#65 := by decide +kernel
-- R211: a reserved word leaves STATUS 0x10.
theorem test_reserved_word_signals_ill :
    step ((withXY (reg false [1] 128) (reg false [2] 128)).withFetchWord 16 0x1001) =
      .next { withXY (reg false [1] 128) (reg false [2] 128) with status := 0x10#8 } := by rfl

-- R51, R231: ISSUE, WRITE_IBUF(0, 0x31), READ_IBUF(0), RESET(), READ_IBUF(0), the RESET arriving while the command runs:
-- the write and the read before it take effect before it, and the read after it answers 0x00.
theorem test_reset_keeps_host_order :
    runSteps 2 { withXY (reg false [1] 128) (reg false [2] 128) with
      running := some ⟨0x2312#16, 5⟩, held := [.writeIbuf 0 0x31#8, .readIbuf 0], script := [.reset, .readIbuf 0] } =
      .next { State.reset with replies := [.ibufByte 0 0x31#8, .ibufByte 0 0x00#8] } := by rfl

/-! ## Witnesses: states and operands that meet the hypotheses of the statements -/

theorem witness_ResetOperationRestoresBlock :
    let s := { withXY (reg false [1] 128) (reg true [2] 3) with script := [.reset, .readStatus] }
    s.running = none ∧ s.held = [] ∧ s.script = .reset :: [.readStatus] := ⟨rfl, rfl, rfl⟩

-- The RESET has a write and a read held before it.
theorem witness_ResetEndsRunningCommand :
    let s := { State.reset with running := some ⟨0x2123#16, 0 + 1⟩, held := [.writeIbuf 0 0x31#8, .readIbuf 0], script := [.reset] }
    s.running = some ⟨0x2123#16, 0 + 1⟩ ∧ s.script = .reset :: [] := ⟨rfl, rfl⟩
theorem witness_ResetEndsRunningCommand_held :
    let s := { State.reset with running := some ⟨0x2123#16, 0 + 1⟩, script := [.writeIbuf 15 0x31#8] }
    s.running = some ⟨0x2123#16, 0 + 1⟩ ∧ s.script = .writeIbuf 15 0x31#8 :: [] := ⟨rfl, rfl⟩

theorem witness_RunningCommandHoldsOperations :
    let s := { State.reset with running := some ⟨0x2123#16, 0 + 1⟩, script := [.readReg 1] }
    s.running = some ⟨0x2123#16, 0 + 1⟩ ∧ s.script = .readReg 1 :: [] ∧ HostOp.readReg 1 ≠ .reset := by decide

-- A RESET that has not arrived yet is no obstacle: it is the third of the script, and two steps wait.
theorem witness_CommandCompletesWhateverLatency :
    let s := { State.reset with running := some ⟨0x2123#16, 2⟩, script := [.readReg 1, .readStatus, .reset] }
    s.running = some ⟨0x2123#16, 2⟩ ∧ ∀ op ∈ s.script.take 2, op ≠ HostOp.reset := by decide

theorem witness_IssuedCommandCompletes :
    let s := { State.reset with script := [.issue 0x2123#16] }
    s.running = none ∧ s.held = [] ∧ s.script = [.issue 0x2123#16] := ⟨rfl, rfl, rfl⟩

-- A decoded word with a write held behind it, a reserved word with an ISSUE, and a script with an ISSUE and a RESET.
theorem witness_HeldOperations_decoded :
    let s := { State.reset with running := some ⟨0x2123#16, 0⟩, held := [.writeIbuf 0 0x31#8, .readStatus] }
    s.running = some ⟨0x2123#16, 0⟩ ∧ s.held = .writeIbuf 0 0x31#8 :: [.readStatus] := ⟨rfl, rfl⟩
theorem witness_HeldOperations_reserved :
    let s := { State.reset with running := some ⟨0x6123#16, 0⟩, held := [.issue 0x1100#16] }
    s.running = some ⟨0x6123#16, 0⟩ ∧ s.held = .issue 0x1100#16 :: [] := ⟨rfl, rfl⟩
theorem witness_HeldOperations_run :
    let s := { State.reset with script := [.issue 0x2123#16, .readReg 1] }
    s.running = none ∧ s.held = [] ∧ HostOp.reset ∉ s.script := by decide

-- The first and the last byte.
theorem witness_WriteIbufChangesOneByte_first :
    let s := { withRecord [0x2D, 0x31] with script := [.writeIbuf 0 0x20#8] }
    s.running = none ∧ s.held = [] ∧ s.script = .writeIbuf 0 0x20#8 :: [] ∧ Memory.wf s.ibuf = true := by decide +kernel
theorem witness_WriteIbufChangesOneByte_last :
    let s := { withRecord [0x2D, 0x31] with script := [.writeIbuf 15 0x00#8] }
    s.running = none ∧ s.held = [] ∧ s.script = .writeIbuf 15 0x00#8 :: [] ∧ Memory.wf s.ibuf = true := by decide +kernel

theorem witness_HostReads_readIbuf :
    let s := { withRecord [0x2D, 0x31] with script := [.readIbuf 15] }
    s.running = none ∧ s.held = [] ∧ s.script = .readIbuf 15 :: [] := ⟨rfl, rfl, rfl⟩
theorem witness_HostReads_readReg :
    let s := { State.reset with script := [.readReg 15] }
    s.running = none ∧ s.held = [] ∧ s.script = .readReg 15 :: [] := ⟨rfl, rfl, rfl⟩
theorem witness_HostReads_readStatus :
    let s := { State.reset with script := [.readStatus], status := 0xFF#8 }
    s.running = none ∧ s.held = [] ∧ s.script = .readStatus :: [] := ⟨rfl, rfl, rfl⟩

theorem witness_DecodeEncodeRoundTrip : (Instr.add 15 0 15).wellFormed = true := by decide
theorem witness_EncodeDecodeRoundTrip : decode 0x4F0F#16 = .ok (.mul 15 0 15) := by rfl

theorem witness_StepRunsDecodedCommand :
    let s := { State.reset with running := some ⟨0x5504#16, 0⟩ }
    s.running = some ⟨0x5504#16, 0⟩ ∧ decode 0x5504#16 = .ok (.div 5 0 4) ∧ (Instr.div 5 0 4).wellFormed = true :=
  ⟨rfl, rfl, rfl⟩
-- The reserved branch of the procedure.
theorem witness_DecodeAndRunProcedure :
    ({ State.reset with running := some ⟨0x1001#16, 0⟩ } : State).running = some ⟨0x1001#16, 0⟩ := rfl

-- The largest buffers: a carry, and a borrow, both escape.
theorem witness_AddBufAddsModulo :
    (List.replicate 16 9 : Buf).length = 16 ∧ (clear.set 15 1).length = 16 ∧
      addBuf (List.replicate 16 9) (clear.set 15 1) = (clear, true) := by decide +kernel
theorem witness_SubBufSubtractsModulo :
    clear.length = 16 ∧ (clear.set 15 1).length = 16 ∧
      subBuf clear (clear.set 15 1) = (List.replicate 16 9, true) := by decide +kernel
theorem witness_CompareGeIsNumeric :
    (clear.set 15 1).length = 16 ∧ (clear.set 0 1).length = 16 ∧ compareGe (clear.set 15 1) (clear.set 0 1) = false := by
  decide
theorem witness_ShiftsScaleByTen :
    ((clear.set 1 3).set 15 7).length = 16 ∧ ((clear.set 1 3).set 15 7).headD 0 = 0 ∧
      shiftLeftOne ((clear.set 1 3).set 15 7) = (clear.set 0 3).set 14 7 := by decide

-- Both branches of ParseWritesRecordOrSignalsPE: " 1" is well formed, reset's IBUF is not (R120).
theorem witness_ParseWritesRecord : wellFormedRecord (operandsR (withRecord [0x20, 0x31])) = true := by decide +kernel
theorem witness_ParseSignalsPE : wellFormedRecord (operandsR State.reset) = false := by decide +kernel
theorem witness_WellFormedRecords : (record [0x20, 0x2E]).length = 16 ∧ wellFormedRecord (record [0x20, 0x2E]) = false := by
  decide +kernel

-- The ends of the exponent ranges (R118): 19, 237, 114 and 142, and a zero.
theorem witness_ParsedRegisterClass_least :
    let c := record [0x20, 0x2E, 0x30, 0x30, 0x30, 0x30, 0x30, 0x30, 0x30, 0x30, 0x30, 0x31, 0x45, 0x2D, 0x39, 0x39]
    c.length = 16 ∧ wellFormedRecord c = true ∧ (parseValue c).exp.toNat = 19 := by decide +kernel
theorem witness_ParsedRegisterClass_greatest :
    let c := record [0x20, 0x39, 0x39, 0x39, 0x39, 0x39, 0x39, 0x39, 0x39, 0x39, 0x39, 0x39, 0x45, 0x2B, 0x39, 0x39]
    c.length = 16 ∧ wellFormedRecord c = true ∧ (parseValue c).exp.toNat = 237 := by decide +kernel
theorem witness_ParsedRegisterClass_least_without_field :
    let c := record [0x20, 0x2E, 0x30, 0x30, 0x30, 0x30, 0x30, 0x30, 0x30, 0x30, 0x30, 0x30, 0x30, 0x30, 0x30, 0x31]
    c.length = 16 ∧ wellFormedRecord c = true ∧ c.getD 12 0 ≠ 0x45#8 ∧ (parseValue c).exp.toNat = 114 := by decide +kernel
theorem witness_ParseTruncatesExactText :
    let c := record [0x20, 0x31, 0x32, 0x33, 0x34, 0x35, 0x36, 0x37, 0x38, 0x39, 0x30, 0x31, 0x32, 0x33, 0x34, 0x35]
    c.length = 16 ∧ wellFormedRecord c = true ∧ (parseValue c).exp.toNat = 142 := by decide +kernel
theorem witness_ParseTruncatesExactText_zero :
    let c := record [0x2D, 0x30]
    c.length = 16 ∧ wellFormedRecord c = true ∧ parseValue c = Register.trueZero := by decide +kernel

theorem witness_AddSubZeroOperands_second :
    (∀ k, (hk : k < 14) → (reg true [] 0).mant[k] = 0) := by decide +kernel
theorem witness_AddSubZeroOperands_first :
    (∀ k, (hk : k < 14) → (reg true [] 0).mant[k] = 0) ∧ ¬ ∀ k, (hk : k < 14) → (reg false [5] 128).mant[k] = 0 := by
  decide +kernel

-- A difference of 15, either way.
theorem witness_AddSubCollapse :
    (¬ ∀ k, (hk : k < 14) → (reg false [1] 113).mant[k] = 0) ∧ (¬ ∀ k, (hk : k < 14) → (reg false [1] 128).mant[k] = 0) ∧
      (reg false [1] 113).exp.toNat + 14 < (reg false [1] 128).exp.toNat := by decide +kernel
theorem witness_AddSubCollapse_other_way :
    (¬ ∀ k, (hk : k < 14) → (reg false [1] 128).mant[k] = 0) ∧ (¬ ∀ k, (hk : k < 14) → (reg false [1] 113).mant[k] = 0) ∧
      (reg false [1] 113).exp.toNat + 14 < (reg false [1] 128).exp.toNat := by decide +kernel

theorem witness_EffectiveAddition_add :
    (reg true [9] 255).mant[0] ≠ 0 ∧ (reg true [5] 255).mant[0] ≠ 0 ∧
      ((reg true [5] 255).sign ^^ false) = (reg true [9] 255).sign := by decide +kernel
theorem witness_EffectiveAddition_sub :
    (reg false [9] 128).mant[0] ≠ 0 ∧ (reg true [5] 100).mant[0] ≠ 0 ∧
      ((reg true [5] 100).sign ^^ true) = (reg false [9] 128).sign := by decide +kernel

-- A difference of 2, and equal operands (the exact result 0).
theorem witness_CloseSubtractionTruncates :
    (reg false [1] 130).mant[0] ≠ 0 ∧ (reg false [9] 128).mant[0] ≠ 0 ∧
      ((reg false [9] 128).sign ^^ true) ≠ (reg false [1] 130).sign ∧
      expDiff (reg false [1] 130).exp (reg false [9] 128).exp = 2 := by decide +kernel
theorem witness_CloseSubtraction_zero :
    (reg false [5] 128).mant[0] ≠ 0 ∧ (reg true [5] 128).mant[0] ≠ 0 ∧
      ((reg true [5] 128).sign ^^ false) ≠ (reg false [5] 128).sign ∧
      expDiff (reg false [5] 128).exp (reg true [5] 128).exp ≤ 2 := by decide +kernel
theorem witness_FarSubtraction_least :
    (reg false [1] 128).mant[0] ≠ 0 ∧ (reg false [9] 125).mant[0] ≠ 0 ∧
      ((reg false [9] 125).sign ^^ true) ≠ (reg false [1] 128).sign ∧
      expDiff (reg false [1] 128).exp (reg false [9] 125).exp = 3 := by decide +kernel
theorem witness_FarSubtraction_greatest :
    (reg false [1] 128).mant[0] ≠ 0 ∧ (reg false [1] 114).mant[0] ≠ 0 ∧
      ((reg false [1] 114).sign ^^ true) ≠ (reg false [1] 128).sign ∧
      expDiff (reg false [1] 128).exp (reg false [1] 114).exp = 14 := by decide +kernel
theorem witness_CollapsedSubtractionBound :
    (reg false [1] 128).mant[0] ≠ 0 ∧ (reg false [1] 113).mant[0] ≠ 0 ∧
      ((reg false [1] 113).sign ^^ true) ≠ (reg false [1] 128).sign ∧
      expDiff (reg false [1] 128).exp (reg false [1] 113).exp = 15 := by decide +kernel

theorem witness_MulByZeroIsTrueZero :
    ∀ k, (hk : k < 14) → ((withXY (reg true [5] 128) (reg true [] 0)).readReg 2).mant[k] = 0 := by decide +kernel
theorem witness_MulTruncates : (reg true [9, 9] 227).mant[0] ≠ 0 ∧ (reg false [9, 9] 227).mant[0] ≠ 0 := by decide +kernel
theorem witness_MulByOneIsIdentity : ¬ ∀ k, (hk : k < 14) → (reg false [1] 0).mant[k] = 0 := by decide +kernel

-- At the boundary: X one below 10 Y completes, X equal to 10 Y signals INV; both dividends have a leading digit 1.
theorem witness_DivCompletes :
    let s := withXY (reg false [0, 9, 9, 9, 9, 9, 9, 9, 9, 9, 9, 9, 9, 9] 128) (reg false [0, 1] 128)
    (s.readReg 1).significand + 1 = 10 * (s.readReg 2).significand := by decide +kernel
theorem witness_DivCompletes_zero_divisor :
    ((withXY (reg false [1] 128) (reg true [] 0)).readReg 2).significand = 0 := by decide +kernel
theorem witness_DivQuotientDigitOverNine :
    let s := withXY (reg false [1] 128) (reg false [0, 1] 128)
    (s.readReg 2).significand ≠ 0 ∧ 10 * (s.readReg 2).significand = (s.readReg 1).significand := by decide +kernel
theorem witness_DivZeroOperands_divisor :
    ∀ k, (hk : k < 14) → ((withXY (reg true [5] 128) (reg true [] 0)).readReg 2).mant[k] = 0 := by decide +kernel
theorem witness_DivZeroOperands_dividend :
    (¬ ∀ k, (hk : k < 14) → ((withXY (reg true [] 0) (reg true [5] 128)).readReg 2).mant[k] = 0) ∧
      ∀ k, (hk : k < 14) → ((withXY (reg true [] 0) (reg true [5] 128)).readReg 1).mant[k] = 0 := by decide +kernel
theorem witness_DivQuotientIsFloor :
    (reg false [3] 128).significand ≠ 0 ∧ (reg false [2] 128).significand < 10 * (reg false [3] 128).significand := by
  decide +kernel
theorem witness_DivTruncates : (reg true [2] 128).mant[0] ≠ 0 ∧ (reg false [3] 128).mant[0] ≠ 0 := by decide +kernel
theorem witness_DivByOneIsIdentity : (reg false [9] 0).mant[0] ≠ 0 := by decide +kernel

theorem witness_SourceWorkedExamples_parse :
    (List.finRange 16).map (fun k => (withRecord [0x20, 0x31]).readByte k) = 0x20#8 :: 0x31#8 :: List.replicate 14 0x20#8 := by
  decide +kernel
theorem witness_SourceWorkedExamples_add_div :
    let s := withXY (reg false [1] 128) (reg false [] 128)
    s.readReg 1 = ⟨false, mantissaOf [1], 128#8⟩ ∧ s.readReg 2 = ⟨false, mantissaOf [], 128#8⟩ := by decide +kernel
theorem witness_SourceWorkedExamples_mul :
    (withXY (reg false [9] 128) Register.trueZero).readReg 1 = ⟨false, mantissaOf [9], 128#8⟩ := by decide +kernel

-- An ordinary command, and one that leaves PE.
theorem witness_CommandFrame : ∃ t, exec (.mul 3 1 2) (withXY (reg false [9] 128) (reg false [9] 128)) = .next t := ⟨_, rfl⟩
theorem witness_CommandFrame_pe : after (.parse 3) State.reset 3 = some (Register.trueZero, 0x04#8) := by decide +kernel
theorem witness_CommandStatusValues :
    (∃ t, exec (.parse 1) State.reset = .next t) ∧ (∃ t, exec (.add 1 2 3) State.reset = .next t) ∧
      (∃ t, exec (.sub 1 2 3) State.reset = .next t) ∧ (∃ t, exec (.mul 1 2 3) State.reset = .next t) ∧
      (∃ t, exec (.div 1 2 3) State.reset = .next t) := ⟨⟨_, rfl⟩, ⟨_, rfl⟩, ⟨_, rfl⟩, ⟨_, rfl⟩, ⟨_, rfl⟩⟩
theorem witness_ArithmeticDependsOnOperandsAlone :
    let s := withXY (reg false [1] 128) (reg false [3] 128)
    let u := { s with status := 0x10#8, ibuf := [(3, 0x31#8)] }
    s.readReg 1 = u.readReg 1 ∧ s.readReg 2 = u.readReg 2 ∧ Instr.div 1 1 2 ∈ [Instr.add 1 1 2, .sub 1 1 2, .mul 1 1 2, .div 1 1 2] ∧
      (∃ t, exec (.div 1 1 2) s = .next t) ∧ (∃ w, exec (.div 1 1 2) u = .next w) :=
  ⟨rfl, rfl, by decide, ⟨_, rfl⟩, ⟨_, rfl⟩⟩

theorem witness_StepKeepsIbufCanonical :
    Memory.wf [(0, 0x2D#8), (15, 0x39#8)] = true ∧
      ∃ t, step { State.reset with ibuf := [(0, 0x2D#8), (15, 0x39#8)], script := [.writeIbuf 0 0x00#8] } = .next t :=
  ⟨by decide, _, rfl⟩
theorem witness_StepKeepsRegisterClasses :
    (withXY (reg true [] 0) (reg false [9] 0)).Inv ∧ ∃ t, step (withXY (reg true [] 0) (reg false [9] 0)) = .next t :=
  ⟨by decide +kernel, _, rfl⟩

end Sys2Proof.Tests
end

section
/-! SUPPORT. The digit primitives and the scratch-buffer operations as arithmetic on the numbers that digit sequences
stand for (40_primitives.md R80 to R92), for buffers of any length. -/

namespace Sys2Proof.Machine

/-- R80: the sum digit and the carry together are the sum. -/
theorem digitAddCarry_sum (d1 d2 : Digit) (cin : Bool) :
    (digitAddCarry d1 d2 cin).1.val + 10 * (digitAddCarry d1 d2 cin).2.toNat = d1.val + d2.val + cin.toNat := by
  have hc := cin.toNat_le
  simp only [digitAddCarry]
  split <;> simp only [Bool.toNat_true, Bool.toNat_false] <;> omega

/-- R81: the difference digit is the difference, with 10 added for a borrow. -/
theorem digitSubBorrow_diff (d1 d2 : Digit) (bin : Bool) :
    (digitSubBorrow d1 d2 bin).1.val + d2.val + bin.toNat = d1.val + 10 * (digitSubBorrow d1 d2 bin).2.toNat := by
  have hb := bin.toNat_le
  simp only [digitSubBorrow]
  split <;> simp only [Bool.toNat_true, Bool.toNat_false] <;> omega

/-- R82: the high nibble of a packed product is its tens digit, the low nibble its units digit. -/
theorem nibbles_digitMult (d1 d2 : Digit) :
    (nibbleDigit ((digitMult d1 d2).extractLsb' 4 4)).val = d1.val * d2.val / 10 ∧
      (nibbleDigit ((digitMult d1 d2).extractLsb' 0 4)).val = d1.val * d2.val % 10 := by
  revert d1 d2
  decide

/-! ### Digit sequences as numbers -/

@[simp] theorem digitsNat_nil : digitsNat [] = 0 := rfl

theorem digitsNat_append (a b : List Digit) : digitsNat (a ++ b) = digitsNat a * 10 ^ b.length + digitsNat b := by
  induction a with
  | nil => simp
  | cons d ds ih =>
    rw [List.cons_append, digitsNat_cons, ih, digitsNat_cons, List.length_append, pow_add]
    ring

@[simp] theorem digitsNat_replicate_zero (n : Nat) : digitsNat (List.replicate n 0) = 0 := by
  induction n with
  | zero => rfl
  | succ n ih => simp [List.replicate_succ, digitsNat_cons, ih]

@[simp] theorem digitsNat_clear : digitsNat clear = 0 := digitsNat_replicate_zero 16

theorem digitsNat_eq_zero_iff {b : List Digit} : digitsNat b = 0 ↔ ∀ d ∈ b, d = 0 := by
  induction b with
  | nil => simp
  | cons d ds ih => simp [digitsNat_cons, ih]

/-- R86: a buffer is zero exactly where its number is. -/
theorem isZero_iff_digitsNat {b : Buf} : isZero b = true ↔ digitsNat b = 0 := by
  rw [isZero_iff, digitsNat_eq_zero_iff]

/-- The leading digit is nonzero exactly where the number has all its places. -/
theorem headD_ne_zero_iff {b : List Digit} {n : Nat} (h : b.length = n + 1) : b.headD 0 ≠ 0 ↔ 10 ^ n ≤ digitsNat b := by
  cases b with
  | nil => simp at h
  | cons d ds =>
    obtain rfl : ds.length = n := by simpa using h
    have hlt := digitsNat_lt ds
    rw [List.headD_cons, digitsNat_cons, Ne, Fin.ext_iff, Fin.val_zero]
    constructor
    · intro hd
      have := Nat.le_mul_of_pos_left (10 ^ ds.length) (Nat.pos_of_ne_zero hd)
      omega
    · intro hle hd
      rw [hd] at hle
      omega

/-- Setting a digit that was 0 adds that digit at its place. -/
theorem digitsNat_set_of_zero {b : List Digit} {k : Nat} (d : Digit) (hk : k < b.length) (h0 : b[k] = 0) :
    digitsNat (b.set k d) = digitsNat b + d.val * 10 ^ (b.length - 1 - k) := by
  induction b generalizing k with
  | nil => simp at hk
  | cons c cs ih =>
    cases k with
    | zero =>
      simp only [List.getElem_cons_zero] at h0
      simp [digitsNat_cons, h0, add_comm]
    | succ k =>
      have hk' : k < cs.length := by simpa using hk
      rw [List.set_cons_succ, digitsNat_cons, digitsNat_cons, ih hk' (by simpa using h0), List.length_set,
        List.length_cons, show cs.length + 1 - 1 - (k + 1) = cs.length - 1 - k by omega, add_assoc]

/-- The leading `n + 1` digits are the leading `n` with one more behind them. -/
theorem digitsNat_take_succ {ds : List Digit} {n : Nat} (h : n < ds.length) :
    digitsNat (ds.take (n + 1)) = digitsNat (ds.take n) * 10 + (ds.getD n 0).val := by
  rw [List.take_succ_eq_append_getElem h, digitsNat_append, List.getD_eq_getElem _ _ h]
  simp [digitsNat_cons]

/-- The digits from `n` on are digit `n` in front of those behind it. -/
theorem digitsNat_drop {ds : List Digit} {n : Nat} (h : n < ds.length) :
    digitsNat (ds.drop n) = (ds.getD n 0).val * 10 ^ (ds.length - (n + 1)) + digitsNat (ds.drop (n + 1)) := by
  rw [List.drop_eq_getElem_cons h, digitsNat_cons, List.length_drop, List.getD_eq_getElem _ _ h]

/-! ### The buffer operations -/

/-- R91: the sum buffer and the escaping carry together are the sum. -/
theorem digitsNat_addBuf {a b : Buf} (h : a.length = b.length) :
    digitsNat (addBuf a b).1 + 10 ^ a.length * (addBuf a b).2.toNat = digitsNat a + digitsNat b := by
  induction a generalizing b with
  | nil => cases b <;> simp_all [addBuf]
  | cons d ds ih =>
    cases b with
    | nil => simp at h
    | cons c cs =>
      have hlen : ds.length = cs.length := by simpa using h
      have hlower := ih hlen
      have hdigit := digitAddCarry_sum d c (addBuf ds cs).2
      simp only [addBuf, digitsNat_cons, List.length_cons, length_addBuf, ← hlen, min_self, pow_succ]
      linear_combination hlower + 10 ^ ds.length * hdigit

/-- R92: the difference buffer is the difference, with the buffers' modulus added for an escaping borrow. -/
theorem digitsNat_subBuf {a b : Buf} (h : a.length = b.length) :
    digitsNat (subBuf a b).1 + digitsNat b = digitsNat a + 10 ^ a.length * (subBuf a b).2.toNat := by
  induction a generalizing b with
  | nil => cases b <;> simp_all [subBuf]
  | cons d ds ih =>
    cases b with
    | nil => simp at h
    | cons c cs =>
      have hlen : ds.length = cs.length := by simpa using h
      have hlower := ih hlen
      have hdigit := digitSubBorrow_diff d c (subBuf ds cs).2
      simp only [subBuf, digitsNat_cons, List.length_cons, length_subBuf, ← hlen, min_self, pow_succ]
      linear_combination hlower + 10 ^ ds.length * hdigit

/-- R92: subtracting the smaller buffer leaves the difference, and no borrow escapes. -/
theorem subBuf_of_le {a b : Buf} (h : a.length = b.length) (hle : digitsNat b ≤ digitsNat a) :
    (subBuf a b).2 = false ∧ digitsNat (subBuf a b).1 = digitsNat a - digitsNat b := by
  have hval := digitsNat_subBuf h
  have hlt := digitsNat_lt (subBuf a b).1
  rw [length_subBuf, ← h, min_self] at hlt
  cases hborrow : (subBuf a b).2 <;> simp only [hborrow, Bool.toNat_true, Bool.toNat_false] at hval
  · exact ⟨rfl, by omega⟩
  · omega

/-- R91: where the sum has no place beyond the top digit, the buffer holds it and no carry escapes. -/
theorem addBuf_of_lt {a b : Buf} (h : a.length = b.length) (hlt : digitsNat a + digitsNat b < 10 ^ a.length) :
    (addBuf a b).2 = false ∧ digitsNat (addBuf a b).1 = digitsNat a + digitsNat b := by
  have hval := digitsNat_addBuf h
  cases hcarry : (addBuf a b).2 <;> simp only [hcarry, Bool.toNat_true, Bool.toNat_false] at hval
  · exact ⟨rfl, by omega⟩
  · omega

/-- R87: the lexicographic comparison of two buffers of one length is the numeric one. -/
theorem compareGe_iff {a b : Buf} (h : a.length = b.length) : compareGe a b = true ↔ digitsNat b ≤ digitsNat a := by
  induction a generalizing b with
  | nil => cases b <;> simp_all [compareGe]
  | cons d ds ih =>
    cases b with
    | nil => simp at h
    | cons c cs =>
      have hlen : ds.length = cs.length := by simpa using h
      have hds := digitsNat_lt ds
      have hcs := digitsNat_lt cs
      rw [← hlen] at hcs
      rw [compareGe, digitsNat_cons, digitsNat_cons, ← hlen]
      rcases lt_trichotomy c d with hlt | rfl | hgt
      · have : (c.val + 1) * 10 ^ ds.length ≤ d.val * 10 ^ ds.length := Nat.mul_le_mul_right _ hlt
        rw [if_pos hlt]
        exact iff_of_true rfl (by linarith)
      · rw [if_neg (lt_irrefl c), if_neg (lt_irrefl c), ih hlen]
        omega
      · have : (d.val + 1) * 10 ^ ds.length ≤ c.val * 10 ^ ds.length := Nat.mul_le_mul_right _ hgt
        rw [if_neg hgt.asymm, if_pos hgt]
        exact iff_of_false Bool.false_ne_true (by linarith)

/-- R88: a right shift drops the last digit. -/
theorem digitsNat_shiftRightOne {b : Buf} (h : b ≠ []) : digitsNat (shiftRightOne b) = digitsNat b / 10 := by
  have hsplit : digitsNat b = digitsNat b.dropLast * 10 + (b.getLast h).val := by
    conv_lhs => rw [← List.dropLast_append_getLast h, digitsNat_append]
    simp [digitsNat_cons]
  have hzero : digitsNat (shiftRightOne b) = digitsNat b.dropLast := by simp [shiftRightOne, digitsNat_cons]
  omega

/-- R89: a left shift of a buffer with a leading 0 multiplies by ten. -/
theorem digitsNat_shiftLeftOne {b : Buf} (h : b.headD 0 = 0) : digitsNat (shiftLeftOne b) = 10 * digitsNat b := by
  have htail : digitsNat b.tail = digitsNat b := by
    cases b with
    | nil => rfl
    | cons d ds =>
      obtain rfl : d = 0 := h
      simp [digitsNat_cons]
  rw [shiftLeftOne, digitsNat_append, htail]
  simp [digitsNat_cons, mul_comm]

/-- The digit at the front of a stored mantissa is the one at the front of the buffer (R85). -/
theorem store_zero (b : Buf) : (store b)[0] = b.headD 0 := by
  cases b <;> simp [store]

/-- R85: the two guard digits make the loaded number a hundred significands. -/
theorem digitsNat_load (r : Register) : digitsNat (load r) = 100 * r.significand := by
  rw [load, digitsNat_append, Register.significand]
  simp [digitsNat_cons, mul_comm]

/-- R194: the pre-shifted copy of an operand is ten significands. -/
theorem digitsNat_preShift (r : Register) : digitsNat (preShift r) = 10 * r.significand := by
  have hne : load r ≠ [] := by simp [load]
  rw [preShift, digitsNat_shiftRightOne hne, digitsNat_load]
  omega

theorem Register.significand_lt (r : Register) : r.significand < 10 ^ 14 := by
  simpa [Register.significand] using digitsNat_lt r.mant.toList

/-- A leading digit 1..9 is a significand of 14 places (R22). -/
theorem Register.mant_zero_ne_zero_iff (r : Register) : r.mant[0] ≠ 0 ↔ 10 ^ 13 ≤ r.significand := by
  have hhead : r.mant.toList.headD 0 = r.mant[0] := by
    rw [← toList_getD r.mant 0 (by omega)]
    cases r.mant.toList <;> rfl
  rw [← hhead, headD_ne_zero_iff (n := 13) (by simp), Register.significand]

end Sys2Proof.Machine
end

section
/-! SUPPORT. The loops of MUL and DIV as arithmetic on significands: the accumulator is a floor of the product and the
quotient buffer a floor of the quotient (43_mul.md R173 to R179, 44_div.md R194 to R199). -/

namespace Sys2Proof.Machine

/-! ### MUL -/

theorem clear_getElem {k : Nat} (hk : k < clear.length) : clear[k] = 0 := List.getElem_replicate hk

/-- R174, R175: a partial product is the product of its two digits, its units at index `i + 1`. -/
theorem digitsNat_partialProduct {i : Nat} (hi : i < 14) (d1 d2 : Digit) :
    digitsNat (partialProduct i (digitMult d1 d2)) = d1.val * d2.val * 10 ^ (14 - i) := by
  obtain ⟨htens, hunits⟩ := nibbles_digitMult d1 d2
  have hplace : 10 ^ (15 - i) = 10 * 10 ^ (14 - i) := by rw [← pow_succ']; congr 1; omega
  rw [partialProduct, digitsNat_set_of_zero _ (by simp; omega) (by simp [clear_getElem]),
    digitsNat_set_of_zero _ (by simp; omega) (clear_getElem _), htens, hunits, digitsNat_clear, List.length_set,
    length_clear, show 16 - 1 - i = 15 - i by omega, show 16 - 1 - (i + 1) = 14 - i by omega, hplace]
  conv_rhs => rw [← Nat.div_add_mod (d1.val * d2.val) 10]
  ring

/-- R173: one row adds the leading `n` digits of `x`, times one digit of `y`, at their places. -/
theorem mulRow_value {mx : List Digit} (yd : Digit) {n : Nat} {acc : Buf} (hn : n ≤ 14) (hmx : mx.length = 14)
    (hacc : acc.length = 16) (hlt : digitsNat acc + digitsNat (mx.take n) * yd.val * 10 ^ (15 - n) < 10 ^ 16) :
    ∃ acc', mulRow mx yd n acc = some acc' ∧ acc'.length = 16 ∧
      digitsNat acc' = digitsNat acc + digitsNat (mx.take n) * yd.val * 10 ^ (15 - n) := by
  induction n generalizing acc with
  | zero => exact ⟨acc, rfl, hacc, by simp⟩
  | succ i ih =>
    have hplace : 10 ^ (15 - i) = 10 * 10 ^ (14 - i) := by rw [← pow_succ']; congr 1; omega
    have hsplit : digitsNat (mx.take (i + 1)) * yd.val * 10 ^ (15 - (i + 1)) =
        (mx.getD i 0).val * yd.val * 10 ^ (14 - i) + digitsNat (mx.take i) * yd.val * 10 ^ (15 - i) := by
      rw [digitsNat_take_succ (by omega), hplace, show 15 - (i + 1) = 14 - i by omega]
      ring
    have hpp := digitsNat_partialProduct (show i < 14 by omega) (mx.getD i 0) yd
    rw [hsplit, ← hpp] at hlt ⊢
    obtain ⟨hcarry, hsum⟩ := addBuf_of_lt (a := acc) (b := partialProduct i (digitMult (mx.getD i 0) yd))
      (by simp [hacc]) (by rw [hacc]; omega)
    simp only [mulRow, hcarry, Bool.false_eq_true, if_false]
    obtain ⟨acc', hrun, hlen, hval⟩ := ih (acc := (addBuf acc (partialProduct i (digitMult (mx.getD i 0) yd))).1)
      (by omega) (by simp [length_addBuf, hacc]) (by rw [hsum]; omega)
    exact ⟨acc', hrun, hlen, by rw [hval, hsum]; omega⟩

/-- R173: before the row of `my[j]` the accumulator is the product of `x` with the digits of `y` behind it, cut at the
place it has reached; the loop carries that to all of `y`. -/
theorem mulRows_value {mx my : List Digit} {j : Nat} {acc : Buf} (hj : j ≤ 14) (hmx : mx.length = 14)
    (hmy : my.length = 14) (hacc : acc.length = 16)
    (hval : digitsNat acc = 100 * digitsNat mx * digitsNat (my.drop j) / 10 ^ (14 - j)) :
    ∃ acc', mulRows mx my j acc = some acc' ∧ acc'.length = 16 ∧
      digitsNat acc' = 100 * digitsNat mx * digitsNat my / 10 ^ 14 := by
  induction j generalizing acc with
  | zero => exact ⟨acc, rfl, hacc, hval⟩
  | succ j ih =>
    have hplace : 10 ^ (14 - j) = 10 ^ (14 - (j + 1)) * 10 := by rw [← pow_succ]; congr 1; omega
    have hshift : digitsNat (shiftRightOne acc) = 100 * digitsNat mx * digitsNat (my.drop (j + 1)) / 10 ^ (14 - j) := by
      have hne : acc ≠ [] := by rintro rfl; simp at hacc
      rw [digitsNat_shiftRightOne hne, hval, Nat.div_div_eq_div_mul, hplace]
    have hrow : digitsNat (shiftRightOne acc) + digitsNat (mx.take 14) * (my.getD j 0).val * 10 ^ (15 - 14) =
        100 * digitsNat mx * digitsNat (my.drop j) / 10 ^ (14 - j) := by
      rw [hshift, ← Nat.add_mul_div_right _ _ (show 0 < 10 ^ (14 - j) by positivity), digitsNat_drop (n := j) (by omega),
        List.take_of_length_le hmx.le, hmy, hplace]
      congr 1
      ring
    have hlt : 100 * digitsNat mx * digitsNat (my.drop j) / 10 ^ (14 - j) < 10 ^ 16 := by
      have hx := digitsNat_lt mx
      have hy := digitsNat_lt (my.drop j)
      rw [hmx] at hx
      rw [List.length_drop, hmy] at hy
      rw [Nat.div_lt_iff_lt_mul (by positivity)]
      calc 100 * digitsNat mx * digitsNat (my.drop j)
          ≤ 100 * 10 ^ 14 * digitsNat (my.drop j) := Nat.mul_le_mul_right _ (by omega)
        _ < 10 ^ 16 * 10 ^ (14 - j) := by omega
    obtain ⟨acc', hrun, hlen, hacc'⟩ := mulRow_value (my.getD j 0) le_rfl hmx (length_shiftRightOne hacc)
      (hrow.trans_lt hlt)
    simp only [mulRows, hrun]
    exact ih (by omega) hlen (hacc'.trans hrow)

/-- R179, R175: the accumulator before normalization is the floor of the product over 10^12, and no carry escapes. -/
theorem mulAccumulator_value (x y : Register) :
    ∃ acc, mulAccumulator x y = some acc ∧ acc.length = 16 ∧
      digitsNat acc = x.significand * y.significand / 10 ^ 12 := by
  obtain ⟨acc, hrun, hlen, hval⟩ := mulRows_value (mx := x.mant.toList) (my := y.mant.toList) (acc := clear) le_rfl
    (by simp) (by simp) length_clear
    (by rw [List.drop_eq_nil_of_le (by simp)]; simp)
  refine ⟨acc, hrun, hlen, ?_⟩
  rw [hval, Register.significand, Register.significand, mul_assoc]
  exact Nat.mul_div_mul_left _ (10 ^ 12) (show 0 < 100 by omega)

/-! ### DIV -/

/-- R195: the loop at one position divides, where the digit it still has to count up to is at most 9. -/
theorem quotientDigit_value {b : Buf} {n : Nat} {q : Digit} {a : Buf} (hlen : a.length = b.length)
    (hn : 9 < n + q.val) (hlt : digitsNat a + q.val * digitsNat b < 10 * digitsNat b) :
    ∃ q' a', quotientDigit b n q a = some (q', a') ∧ a'.length = b.length ∧ digitsNat a' < digitsNat b ∧
      q'.val * digitsNat b + digitsNat a' = q.val * digitsNat b + digitsNat a := by
  induction n generalizing q a with
  | zero => omega
  | succ n ih =>
    rw [quotientDigit]
    by_cases hge : digitsNat b ≤ digitsNat a
    · have hq : q.val + 1 < 10 := by
        have : (q.val + 1) * digitsNat b < 10 * digitsNat b := by linarith
        exact Nat.lt_of_mul_lt_mul_right this
      obtain ⟨-, hsub⟩ := subBuf_of_le hlen hge
      rw [if_pos ((compareGe_iff hlen).mpr hge), dif_neg (by omega)]
      have hnext : (q.val + 1) * digitsNat b + digitsNat (subBuf a b).1 = q.val * digitsNat b + digitsNat a := by
        rw [hsub, Nat.succ_mul]
        omega
      obtain ⟨q', a', hrun, hlen', hlt', hval⟩ := ih (q := ⟨q.val + 1, hq⟩) (a := (subBuf a b).1)
        (by simp [length_subBuf, hlen]) (by show 9 < n + (q.val + 1); omega)
        (by show _ + (q.val + 1) * _ < _; omega)
      exact ⟨q', a', hrun, hlen', hlt', hval.trans hnext⟩
    · rw [if_neg (by rw [compareGe_iff hlen]; exact hge)]
      exact ⟨q, a, rfl, hlen, not_le.mp hge, rfl⟩

/-- R195: `n` positions give the leading `n` digits of the quotient. The divisor's leading 0 is R194's pre-shift. -/
theorem quotientDigits_value {b : Buf} (hb : b.length = 16) (hlead : b.headD 0 = 0) (hpos : 0 < digitsNat b) (n : Nat)
    {a : Buf} (ha : a.length = 16) (hlt : digitsNat a < 10 * digitsNat b) :
    ∃ q, quotientDigits b n a = some q ∧ digitsNat q = digitsNat a * 10 ^ n / (10 * digitsNat b) := by
  induction n generalizing a with
  | zero => exact ⟨[], rfl, by simp [Nat.div_eq_of_lt hlt]⟩
  | succ n ih =>
    obtain ⟨d, r, hdigit, hrlen, hrlt, hval⟩ := quotientDigit_value (n := 10) (q := 0) (ha.trans hb.symm) (by simp)
      (by simpa using hlt)
    have hval' : d.val * digitsNat b + digitsNat r = digitsNat a := by simpa using hval
    have hr16 : r.length = 16 := hrlen.trans hb
    have hrlead : r.headD 0 = 0 := by
      by_contra hne
      have hle := (headD_ne_zero_iff hr16).mp hne
      exact (headD_ne_zero_iff hb).mpr (hle.trans hrlt.le) hlead
    have hshift := digitsNat_shiftLeftOne hrlead
    obtain ⟨q, hrun, hq⟩ := ih (length_shiftLeftOne hr16) (by omega)
    refine ⟨d :: q, by simp only [quotientDigits, hdigit, hrun], ?_⟩
    rw [digitsNat_cons, hq, length_quotientDigits hrun, hshift, ← hval', add_comm,
      ← Nat.add_mul_div_right _ _ (show 0 < 10 * digitsNat b by omega)]
    congr 1
    ring

/-- R199: the quotient buffer before normalization is the floor of `X * 10^15 / Y`. -/
theorem divQuotient_value {x y : Register} (hlt : x.significand < 10 * y.significand) :
    ∃ q, divQuotient x y = some q ∧ q.length = 16 ∧
      digitsNat q = x.significand * 10 ^ 15 / y.significand := by
  have hX := digitsNat_preShift x
  have hY := digitsNat_preShift y
  obtain ⟨q, hrun, hval⟩ := quotientDigits_value (b := preShift y) (a := preShift x) (length_preShift y) rfl (by omega) 16
    (length_preShift x) (by omega)
  refine ⟨q, hrun, length_quotientDigits hrun, ?_⟩
  rw [hval, hX, hY, show 10 * x.significand * 10 ^ 16 = 100 * (x.significand * 10 ^ 15) by ring,
    show 10 * (10 * y.significand) = 100 * y.significand by ring]
  exact Nat.mul_div_mul_left _ _ (show 0 < 100 by omega)

end Sys2Proof.Machine
end

section
/-! SUPPORT. What each engine answers on registers of the four classes (10_state.md R33): a Register of one of them, with
DZ and OV not both, and never INV. -/

namespace Sys2Proof.Machine

/-- The answer of an engine that R33 and R217 allow. -/
def EngineResult.InClass : EngineResult → Prop
  | .value r dz ov => r.InClass ∧ (dz && ov) = false
  | .inv => False

theorem Register.inClass_trueZero : Register.trueZero.InClass := .inl rfl

/-- R33 (b), (d): a leading digit 1..9 is enough, whatever sign and exponent. -/
theorem Register.inClass_of_lead {r : Register} (h : r.mant[0] ≠ 0) : r.InClass := by
  by_cases he : r.exp = 0#8
  · exact .inr (.inr (.inr ⟨h, he⟩))
  · exact .inr (.inl ⟨h, he⟩)

theorem regIsZero_of_mant {r : Register} (h : r.mant = Vector.replicate 14 0) : regIsZero r = true := by
  rw [regIsZero_iff]
  intro k hk
  simp [h]

/-- A register of the four classes that is not zero has a leading digit 1..9. -/
theorem Register.InClass.lead_ne_zero {r : Register} (h : r.InClass) (hz : ¬ regIsZero r = true) : r.mant[0] ≠ 0 := by
  rcases h with rfl | ⟨hlead, -⟩ | ⟨hmant, -⟩ | ⟨hlead, -⟩
  · exact absurd (regIsZero_of_mant rfl) hz
  · exact hlead
  · exact absurd (regIsZero_of_mant hmant) hz
  · exact hlead

theorem divZeroSentinel_inClass (s : Bool) : (divZeroSentinel s).InClass := .inr (.inr (.inl ⟨rfl, rfl⟩))

/-- A result stored from a buffer with a leading digit 1..9 is in its class. -/
theorem value_store_inClass {b : Buf} (h : b.headD 0 ≠ 0) (s : Bool) (e : BitVec 8) (ov : Bool) :
    (EngineResult.value ⟨s, store b, e⟩ false ov).InClass :=
  ⟨Register.inClass_of_lead (by rwa [store_zero]), rfl⟩

theorem computed_inClass {b : Buf} (h : b.headD 0 ≠ 0) (s : Bool) (e : Int) : (computed s b e).InClass :=
  value_store_inClass h s _ _

theorem returned_inClass {r : Register} (h : r.InClass) : (returned r).InClass := ⟨h, rfl⟩

/-! ### ADD and SUB -/

/-- R146: the operand with the larger exponent keeps its place, so one aligned buffer has a leading digit 1..9. -/
theorem align_lead {x y : Register} (hx : x.mant[0] ≠ 0) (hy : y.mant[0] ≠ 0) :
    (align x y).1.length = 16 ∧ (align x y).2.1.length = 16 ∧
      10 ^ 15 ≤ digitsNat (align x y).1 + digitsNat (align x y).2.1 := by
  have hX := x.mant_zero_ne_zero_iff.mp hx
  have hY := y.mant_zero_ne_zero_iff.mp hy
  have hlx := digitsNat_load x
  have hly := digitsNat_load y
  rw [align]
  split
  · exact ⟨length_shiftRight (length_load x) _, length_load y, by simp only; omega⟩
  · exact ⟨length_load x, length_shiftRight (length_load y) _, by simp only; omega⟩

/-- R149: a sum of 16 places keeps a leading digit 1..9, and an escaping carry becomes the leading 1. -/
theorem effectiveAddition_inClass (sx : Bool) {a b : Buf} (e : Int) (ha : a.length = 16) (hb : b.length = 16)
    (hsum : 10 ^ 15 ≤ digitsNat a + digitsNat b) : (effectiveAddition sx a b e).InClass := by
  have hval := digitsNat_addBuf (ha.trans hb.symm)
  have hlen : (addBuf a b).1.length = 16 := by simp [length_addBuf, ha, hb]
  cases hcarry : (addBuf a b).2
  · rw [hcarry, Bool.toNat_false, mul_zero, add_zero] at hval
    have hlead := (headD_ne_zero_iff hlen).mpr (hsum.trans_eq hval.symm)
    simpa [effectiveAddition, hcarry] using computed_inClass hlead sx _
  · have hlead : ((shiftRightOne (addBuf a b).1).set 0 1).headD 0 ≠ 0 := by simp [shiftRightOne]
    simpa [effectiveAddition, hcarry] using computed_inClass hlead sx _

/-- R150, R151: the smaller buffer is subtracted from the larger, so no borrow escapes: the digits left are those of the
difference, and they are normalized where they are not all zero. -/
theorem effectiveSubtraction_eq (sx : Bool) {a b : Buf} (e : Int) (ha : a.length = 16) (hb : b.length = 16) :
    ∃ r : Buf, r.length = 16 ∧ digitsNat r = ((digitsNat a : Int) - digitsNat b).natAbs ∧
      effectiveSubtraction sx a b e =
        if isZero r then returned Register.trueZero
        else computed (sx ^^ !compareGe a b) (normalize 15 r e).1 (normalize 15 r e).2 := by
  cases hge : compareGe a b
  · have hlt : ¬ digitsNat b ≤ digitsNat a := by rw [← compareGe_iff (ha.trans hb.symm), hge]; simp
    obtain ⟨hborrow, hdiff⟩ := subBuf_of_le (hb.trans ha.symm) (not_le.mp hlt).le
    exact ⟨(subBuf b a).1, by simp [length_subBuf, ha, hb], by omega, by simp [effectiveSubtraction, hge, swap, hborrow]⟩
  · have hle := (compareGe_iff (ha.trans hb.symm)).mp hge
    obtain ⟨hborrow, hdiff⟩ := subBuf_of_le (ha.trans hb.symm) hle
    exact ⟨(subBuf a b).1, by simp [length_subBuf, ha, hb], by omega, by simp [effectiveSubtraction, hge, hborrow]⟩

/-- R151: `n` rounds bring a digit to the front where the number is at most `n` places short. -/
theorem normalize_lead {n : Nat} {r : Buf} (e : Int) (hr : r.length = 16) (h : 10 ^ 15 ≤ digitsNat r * 10 ^ n) :
    (normalize n r e).1.headD 0 ≠ 0 := by
  induction n generalizing r e with
  | zero => exact (headD_ne_zero_iff hr).mpr (by simpa using h)
  | succ n ih =>
    rw [normalize]
    split
    next hlead =>
      apply ih _ (length_shiftLeftOne hr)
      rw [digitsNat_shiftLeftOne hlead]
      calc 10 ^ 15 ≤ digitsNat r * 10 ^ (n + 1) := h
        _ = 10 * digitsNat r * 10 ^ n := by ring
    next hlead => exact hlead

theorem effectiveSubtraction_inClass (sx : Bool) {a b : Buf} (e : Int) (ha : a.length = 16) (hb : b.length = 16) :
    (effectiveSubtraction sx a b e).InClass := by
  obtain ⟨r, hlen, -, heq⟩ := effectiveSubtraction_eq sx e ha hb
  rw [heq]
  split
  next => exact returned_inClass Register.inClass_trueZero
  next hz =>
    rw [isZero_iff_digitsNat] at hz
    exact computed_inClass (normalize_lead e hlen (by omega)) _ _

/-- R33, R158: the add/subtract engine. -/
theorem addsub_inClass {x y : Register} (sub : Bool) (hx : x.InClass) (hy : y.InClass) : (addsub x y sub).InClass := by
  by_cases hyz : regIsZero y = true
  · rw [addsub, if_pos hyz]
    split
    · exact returned_inClass Register.inClass_trueZero
    · exact returned_inClass hx
  have hylead := hy.lead_ne_zero hyz
  have hsigned : ({ y with sign := y.sign ^^ sub } : Register).InClass := Register.inClass_of_lead hylead
  by_cases hxz : regIsZero x = true
  · rw [addsub, if_neg hyz, if_pos hxz]
    exact returned_inClass hsigned
  obtain ⟨ha, hb, hsum⟩ := align_lead (hx.lead_ne_zero hxz) hylead
  rw [addsub, if_neg hyz, if_neg hxz]
  split
  · split
    · exact returned_inClass hsigned
    · exact returned_inClass hx
  · simp only
    split
    · exact effectiveAddition_inClass _ _ ha hb hsum
    · exact effectiveSubtraction_inClass _ _ ha hb

/-! ### MUL and DIV -/

/-- A buffer at most one place short has a leading digit 1..9, at once or after one left shift (R176, R196). -/
theorem shiftLeftOne_lead {b : Buf} (hb : b.length = 16) (h : 10 ^ 14 ≤ digitsNat b) (hlead : b.headD 0 = 0) :
    (shiftLeftOne b).headD 0 ≠ 0 := by
  rw [headD_ne_zero_iff (length_shiftLeftOne hb), digitsNat_shiftLeftOne hlead]
  omega

theorem mulNormalize_inClass (s : Bool) {acc : Buf} (e : Int) (hlen : acc.length = 16) (h : 10 ^ 14 ≤ digitsNat acc) :
    (mulNormalize s acc e).InClass := by
  rw [mulNormalize]
  split
  next hlead => exact value_store_inClass (shiftLeftOne_lead hlen h hlead) _ _ _
  next hlead => exact value_store_inClass hlead _ _ _

theorem divNormalize_inClass (s : Bool) {q : Buf} (e : Int) (hlen : q.length = 16) (h : 10 ^ 14 ≤ digitsNat q) :
    (divNormalize s q e).InClass := by
  rw [divNormalize]
  split
  next hlead => exact value_store_inClass (shiftLeftOne_lead hlen h hlead) _ _ _
  next hlead => exact value_store_inClass hlead _ _ _

/-- R33, R178: the multiply engine. Two significands of 14 places leave an accumulator of at least 15. -/
theorem mul_inClass {x y : Register} (hx : x.InClass) (hy : y.InClass) : (mul x y).InClass := by
  by_cases hz : (regIsZero x || regIsZero y) = true
  · rw [mul, if_pos hz]
    exact ⟨Register.inClass_trueZero, rfl⟩
  · obtain ⟨hxz, hyz⟩ : ¬ regIsZero x = true ∧ ¬ regIsZero y = true := by simpa using hz
    have hX := x.mant_zero_ne_zero_iff.mp (hx.lead_ne_zero hxz)
    have hY := y.mant_zero_ne_zero_iff.mp (hy.lead_ne_zero hyz)
    obtain ⟨acc, hrun, hlen, hval⟩ := mulAccumulator_value x y
    have hacc : 10 ^ 14 ≤ digitsNat acc := by
      rw [hval, Nat.le_div_iff_mul_le (by norm_num)]
      calc 10 ^ 14 * 10 ^ 12 = 10 ^ 13 * 10 ^ 13 := by norm_num
        _ ≤ x.significand * y.significand := Nat.mul_le_mul hX hY
    simp only [mul, if_neg hz, hrun]
    exact mulNormalize_inClass _ _ hlen hacc

/-- R33, R198: the divide engine. Two significands of 14 places are less than a factor of ten apart, so no quotient digit
passes 9 and the quotient has at least 15 places. -/
theorem divide_inClass {x y : Register} (hx : x.InClass) (hy : y.InClass) : (divide x y).InClass := by
  by_cases hyz : regIsZero y = true
  · rw [divide, if_pos hyz]
    exact ⟨divZeroSentinel_inClass _, rfl⟩
  by_cases hxz : regIsZero x = true
  · rw [divide, if_neg hyz, if_pos hxz]
    exact ⟨Register.inClass_trueZero, rfl⟩
  have hX := x.mant_zero_ne_zero_iff.mp (hx.lead_ne_zero hxz)
  have hY := y.mant_zero_ne_zero_iff.mp (hy.lead_ne_zero hyz)
  have hXlt := x.significand_lt
  have hYlt := y.significand_lt
  obtain ⟨q, hrun, hlen, hval⟩ := divQuotient_value (x := x) (y := y) (by omega)
  have hq : 10 ^ 14 ≤ digitsNat q := by
    rw [hval, Nat.le_div_iff_mul_le (by omega)]
    omega
  simp only [divide, if_neg hyz, if_neg hxz, hrun]
  exact divNormalize_inClass _ _ hlen hq

/-! ### PARSE -/

theorem headD_dropWhile_zero_ne {ds : List Digit} (h : ds.dropWhile (· == 0) ≠ []) :
    (ds.dropWhile (· == 0)).headD 0 ≠ 0 := by
  have hhead := List.head_dropWhile_not (· == 0) h
  rw [List.headD_eq_head?_getD, List.head?_eq_some_head h]
  simpa using hhead

/-- R116: the significant digits are the integer digits and the fraction, from the first digit 1..9 on. -/
theorem significant_digits (i fr : List Digit) :
    (significant i fr).1 = if i.dropWhile (· == 0) ≠ [] then i.dropWhile (· == 0) ++ fr else fr.dropWhile (· == 0) := by
  have hdrop : fr.drop (fr.takeWhile (· == 0)).length = fr.dropWhile (· == 0) := by
    conv_lhs => arg 2; rw [← List.takeWhile_append_dropWhile (p := (· == 0)) (l := fr)]
    exact List.drop_left
  simp only [significant]
  split
  · rfl
  · exact hdrop

/-- R116: the significant digits start at a digit 1..9. -/
theorem significant_lead {i fr : List Digit} (h : (significant i fr).1 ≠ []) : (significant i fr).1.headD 0 ≠ 0 := by
  rw [significant_digits] at h ⊢
  by_cases hi : i.dropWhile (· == 0) ≠ []
  · have hhead := headD_dropWhile_zero_ne hi
    rw [if_pos hi]
    rwa [List.headD_eq_head?_getD, List.head?_append_of_ne_nil _ hi, ← List.headD_eq_head?_getD]
  · rw [if_neg hi] at h ⊢
    exact headD_dropWhile_zero_ne h

/-- R118: PARSE's Register, of any record. -/
theorem parseValue_inClass (c : List Byte) : (parseValue c).InClass := by
  simp only [parseValue]
  split
  next => exact Register.inClass_trueZero
  next h =>
    apply Register.inClass_of_lead
    have hlead := significant_lead h
    rwa [← store_zero] at hlead

end Sys2Proof.Machine
end

section
/-! SUPPORT. The invariant of the reachable states: what each shared operation, a command and a step keep of it, and the
statements about reset and the reachable states (10_state.md R30, R33; 60_exceptions.md R217). -/

namespace Sys2Proof.Machine

/-! ### The shared operations -/

theorem State.inv_reset : State.reset.Inv :=
  ⟨fun k => by rw [State.readReg_reset]; exact Register.inClass_trueZero, by decide, Memory.wf_nil⟩

/-- The invariant speaks of the registers, STATUS and IBUF alone. -/
theorem State.Inv.congr {s t : State} (h : s.Inv) (hdr : t.dr = s.dr) (hstatus : t.status = s.status)
    (hibuf : t.ibuf = s.ibuf) : t.Inv := by
  obtain ⟨hreg, hst, hwf⟩ := h
  refine ⟨fun k => ?_, hstatus ▸ hst, hibuf ▸ hwf⟩
  rw [State.readReg, hdr]
  exact hreg k

theorem statusOf_mem {dz ov : Bool} (h : (dz && ov) = false) :
    statusOf dz ov ∈ [0x00#8, 0x01#8, 0x02#8, 0x04#8, 0x10#8] := by
  revert dz ov
  decide

/-- A command that writes a Register of the four classes, with DZ and OV not both, keeps the invariant. -/
theorem State.Inv.complete {s : State} (h : s.Inv) (rd : RegIndex) {r : Register} {dz ov : Bool} (hr : r.InClass)
    (hflags : (dz && ov) = false) : (s.complete rd r (statusOf dz ov)).Inv := by
  obtain ⟨hreg, -, hwf⟩ := h
  refine ⟨fun k => ?_, statusOf_mem hflags, hwf⟩
  by_cases hk : k = rd
  · rw [hk, State.readReg_complete_same]
    exact hr
  · rw [State.readReg_complete_other _ _ _ _ _ hk]
    exact hreg k

/-- A command that signals PE or ILL alone keeps the invariant. -/
theorem State.Inv.signalOnly {s : State} (h : s.Inv) {st : BitVec 8} (hst : st = statusPE ∨ st = statusILL) :
    (s.signalOnly st).Inv := by
  obtain ⟨hreg, -, hwf⟩ := h
  have hmem : st ∈ [0x00#8, 0x01#8, 0x02#8, 0x04#8, 0x10#8] := by rcases hst with rfl | rfl <;> decide
  exact ⟨hreg, hmem, hwf⟩

theorem State.Inv.finish {s : State} (h : s.Inv) (rd : RegIndex) {o : EngineResult} (ho : o.InClass) :
    (s.finish rd o).Inv := by
  rcases s.finish_cases rd o with ⟨r, dz, ov, rfl, hfin⟩ | ⟨rfl, -⟩
  · obtain ⟨hr, hflags⟩ := ho
    rw [hfin]
    exact h.complete rd hr hflags
  · exact ho.elim

theorem State.inv_resetBlock (s : State) : s.resetBlock.Inv := State.inv_reset.congr rfl rfl rfl

/-! ### The host's operations -/

theorem State.Inv.perform {s : State} (h : s.Inv) (op : HostOp) : (s.perform op).Inv := by
  cases op with
  | reset => exact s.inv_resetBlock
  | writeIbuf k v =>
    obtain ⟨hreg, hst, hwf⟩ := h
    exact ⟨hreg, hst, Memory.wf_write v hwf k.isLt⟩
  | readIbuf k => exact h.congr rfl rfl rfl
  | issue c => exact h.congr rfl rfl rfl
  | readReg r => exact h.congr rfl rfl rfl
  | readStatus => exact h.congr rfl rfl rfl

theorem State.Inv.serveHost {s : State} (h : s.Inv) : s.serveHost.Inv := by
  rcases s.serveHost_cases with ⟨op, rest, -, heq⟩ | ⟨op, rest, -, -, heq⟩ | ⟨-, -, heq⟩ <;> rw [heq]
  · exact State.Inv.perform (s := { s with held := rest }) (h.congr rfl rfl rfl) op
  · exact State.Inv.perform (s := { s with script := rest }) (h.congr rfl rfl rfl) op
  · exact h

/-- An arriving operation changes nothing of the block, or resets it whatever was held. -/
theorem State.Inv.arrive {s : State} (h : s.Inv) (op : HostOp) : (s.arrive op).Inv := by
  rcases s.arrive_cases op with ⟨-, heq⟩ | ⟨-, heq⟩ <;> rw [heq]
  · exact State.inv_resetBlock _
  · exact h.congr rfl rfl rfl

theorem State.Inv.waitCycle {s : State} (h : s.Inv) (c : CommandWord) (n : Nat) : (s.waitCycle c n).Inv := by
  rcases s.waitCycle_cases c n with ⟨-, heq⟩ | ⟨op, rest, -, heq⟩ <;> rw [heq]
  · exact h.congr rfl rfl rfl
  · exact State.Inv.arrive (s := { s with running := some ⟨c, n⟩, script := rest }) (h.congr rfl rfl rfl) op

/-! ### Commands, steps and runs -/

/-- R33: every command answers a next state and keeps the invariant. -/
theorem exec_keeps_inv (i : Instr) {s : State} (h : s.Inv) : ∃ t, exec i s = .next t ∧ t.Inv := by
  have hreg := h.left
  cases i with
  | parse rd =>
    rcases execParse_cases rd s with ⟨-, heq⟩ | ⟨-, heq⟩
    · exact ⟨_, heq, h.complete rd (parseValue_inClass _) rfl⟩
    · exact ⟨_, heq, h.signalOnly (.inl rfl)⟩
  | add rd rs1 rs2 => exact ⟨_, rfl, h.finish rd (addsub_inClass false (hreg rs1) (hreg rs2))⟩
  | sub rd rs1 rs2 => exact ⟨_, rfl, h.finish rd (addsub_inClass true (hreg rs1) (hreg rs2))⟩
  | mul rd rs1 rs2 => exact ⟨_, rfl, h.finish rd (mul_inClass (hreg rs1) (hreg rs2))⟩
  | div rd rs1 rs2 => exact ⟨_, rfl, h.finish rd (divide_inClass (hreg rs1) (hreg rs2))⟩

theorem runWord_keeps_inv (c : CommandWord) {s : State} (h : s.Inv) : ∃ t, runWord c s = .next t ∧ t.Inv := by
  rcases runWord_cases c s with ⟨i, -, heq⟩ | ⟨e, -, heq⟩ <;> rw [heq]
  · exact exec_keeps_inv i h
  · exact ⟨_, rfl, h.signalOnly (.inr rfl)⟩

/-- R33, R210: every step answers a next state and keeps the invariant. -/
theorem step_keeps_inv {s : State} (h : s.Inv) : ∃ t, step s = .next t ∧ t.Inv := by
  rcases step_cases s with ⟨-, heq⟩ | ⟨c, -, heq⟩ | ⟨c, n, -, heq⟩ <;> rw [heq]
  · exact ⟨_, rfl, h.serveHost⟩
  · exact runWord_keeps_inv c h
  · exact ⟨_, rfl, h.waitCycle c n⟩

theorem runSteps_keeps_inv (n : Nat) {s : State} (h : s.Inv) : ∃ t, runSteps n s = .next t ∧ t.Inv := by
  induction n generalizing s with
  | zero => exact ⟨s, runSteps_zero s, h⟩
  | succ n ih =>
    obtain ⟨u, hstep, hu⟩ := step_keeps_inv h
    rw [runSteps_succ_of_step n hstep]
    exact ih hu

/-! ### The statements -/

/-- Settles O1: the reset values, field by field. -/
theorem resetLeavesSpecValues : Obligations.ResetLeavesSpecValues :=
  ⟨State.readReg_reset, rfl, fun _ => rfl, rfl⟩

/-- Settles O59: the base case of the invariant. -/
theorem resetHasRegisterClasses : Obligations.ResetHasRegisterClasses := State.inv_reset

/-- Settles O58: the step case of the invariant, by what a step can do. -/
theorem stepKeepsRegisterClasses : Obligations.StepKeepsRegisterClasses := by
  intro s t hs hstep
  obtain ⟨u, hu, hinv⟩ := step_keeps_inv hs
  obtain rfl : u = t := Host.Outcome.next.inj (hu.symm.trans hstep)
  exact hinv

/-- Settles O60: the invariant along a run, whose program stands in a field the invariant does not speak of. -/
theorem reachableStatesKeepRegisterClasses : Obligations.ReachableStatesKeepRegisterClasses := by
  intro program n
  exact runSteps_keeps_inv n (State.inv_reset.congr rfl rfl rfl)

end Sys2Proof.Machine
end

section
/-! SUPPORT. The step case by case, and the statements about one step of the host interface: what is held, written and
read, and how a command word completes (20_memory.md R40, R42, R49, R50). -/

namespace Sys2Proof.Machine

/-! ### What a step does, by the command in progress -/

theorem step_of_idle {s : State} (hr : s.running = none) : step s = .next s.serveHost := by
  simp [step, advance, hr]

theorem step_of_due {s : State} {c : CommandWord} (hr : s.running = some ⟨c, 0⟩) : step s = runWord c s := by
  simp [step, advance, hr]

theorem step_of_waiting {s : State} {c : CommandWord} {n : Nat} (hr : s.running = some ⟨c, n + 1⟩) :
    step s = .next (s.waitCycle c n) := by
  simp [step, advance, hr]

/-- R50: with no command in progress the oldest held operation takes effect. -/
theorem step_serves_held {s : State} {op : HostOp} {rest : List HostOp} (hr : s.running = none)
    (hh : s.held = op :: rest) : step s = .next (State.perform { s with held := rest } op) := by
  simp [step_of_idle hr, State.serveHost, hh]

/-- R49: with nothing running or held the host's next operation takes effect. -/
theorem step_serves_script {s : State} {op : HostOp} {rest : List HostOp} (hr : s.running = none) (hh : s.held = [])
    (hs : s.script = op :: rest) : step s = .next (State.perform { s with script := rest } op) := by
  simp [step_of_idle hr, State.serveHost, hh, hs]

theorem State.arrive_of_ne_reset (s : State) {op : HostOp} (hop : op ≠ .reset) :
    s.arrive op = { s with held := s.held ++ [op] } := by
  rcases s.arrive_cases op with ⟨heq, -⟩ | ⟨-, heq⟩
  · exact absurd heq hop
  · exact heq

theorem State.waitCycle_nil {s : State} (c : CommandWord) (n : Nat) (hs : s.script = []) :
    s.waitCycle c n = { s with running := some ⟨c, n⟩ } := by
  simp [State.waitCycle, hs]

theorem State.waitCycle_cons {s : State} (c : CommandWord) (n : Nat) {op : HostOp} {rest : List HostOp}
    (hs : s.script = op :: rest) :
    s.waitCycle c n = State.arrive { s with running := some ⟨c, n⟩, script := rest } op := by
  simp [State.waitCycle, hs]

/-- R50: an operation other than `RESET()` that arrives in a waiting step is held last. -/
theorem State.waitCycle_holds {s : State} (c : CommandWord) (n : Nat) {op : HostOp} {rest : List HostOp}
    (hs : s.script = op :: rest) (hop : op ≠ .reset) :
    s.waitCycle c n = { s with running := some ⟨c, n⟩, script := rest, held := s.held ++ [op] } := by
  rw [State.waitCycle_cons c n hs, State.arrive_of_ne_reset _ hop]

/-! ### One operation of the host -/

/-- Settles O4: the waiting step holds the operation that arrives. -/
theorem runningCommandHoldsOperations : Obligations.RunningCommandHoldsOperations := by
  intro s c n op rest hr hs hop
  rw [step_of_waiting hr, State.waitCycle_holds c n hs hop]

/-- Settles O8: the step is one write of a canonical memory. -/
theorem writeIbufChangesOneByte : Obligations.WriteIbufChangesOneByte := by
  intro s k v rest hr hh hs hwf
  refine ⟨_, step_serves_script hr hh hs, Memory.read_write_same hwf k.val v, fun j hj => ?_, rfl, rfl, hr, hh, rfl, rfl⟩
  exact Memory.read_write_other hwf v (Fin.val_ne_of_ne hj)

/-- Settles O9: each read is served by the step, and answers without touching the block. -/
theorem hostReadsAnswerWithoutEffect : Obligations.HostReadsAnswerWithoutEffect := by
  intro s rest hr hh
  exact ⟨fun _ hs => step_serves_script hr hh hs, fun _ hs => step_serves_script hr hh hs,
    fun hs => step_serves_script hr hh hs⟩

/-! ### A command word from its issue to its effect -/

/-- Settles O5, by induction on the waiting steps left. -/
theorem commandCompletesWhateverLatency : Obligations.CommandCompletesWhateverLatency := by
  intro n
  induction n with
  | zero =>
    intro s c hr _
    rw [runSteps_one, step_of_due hr]
    simp [← hr]
  | succ n ih =>
    intro s c hr hscript
    rw [runSteps_succ_of_step (n + 1) (step_of_waiting hr)]
    cases hs : s.script with
    | nil =>
      rw [State.waitCycle_nil c n hs, ih _ c rfl (by simp [hs])]
      simp [hs]
    | cons op rest =>
      rw [hs, List.take_succ_cons, List.forall_mem_cons] at hscript
      obtain ⟨hop, hrest⟩ := hscript
      rw [State.waitCycle_holds c n hs hop, ih _ c rfl hrest]
      simp

/-- Settles O6: the step that issues the word, then its waiting steps with an empty script. -/
theorem issuedCommandCompletes : Obligations.IssuedCommandCompletes := by
  intro s c hr hh hs
  rw [runSteps_succ_of_step _ (step_serves_script hr hh hs)]
  refine (commandCompletesWhateverLatency _ (State.beginCommand { s with script := [] } c) c rfl (by simp)).trans ?_
  simp [State.beginCommand]

end Sys2Proof.Machine
end

section
/-! SUPPORT. What commands leave unchanged and what they depend on, and the statements about IBUF's canonical form and the
operands of arithmetic (20_memory.md R40, R41; 10_state.md R25, R29). -/

namespace Sys2Proof.Machine

/-! ### The frame of a command word -/

/-- `t` is `s` after a command word: the registers and STATUS may differ, the command is over, and all else is as it was
(R32, R215). -/
structure State.EndsCommand (s t : State) : Prop where
  running : t.running = none
  ibuf : t.ibuf = s.ibuf
  held : t.held = s.held
  script : t.script = s.script
  replies : t.replies = s.replies

theorem State.endsCommand_complete (s : State) (rd : RegIndex) (r : Register) (st : BitVec 8) :
    s.EndsCommand (s.complete rd r st) := ⟨rfl, rfl, rfl, rfl, rfl⟩

theorem State.endsCommand_signalOnly (s : State) (st : BitVec 8) : s.EndsCommand (s.signalOnly st) :=
  ⟨rfl, rfl, rfl, rfl, rfl⟩

/-- Every command word, a reserved one too, answers a next state within the frame. -/
theorem runWord_endsCommand (c : CommandWord) (s : State) : ∃ t, runWord c s = .next t ∧ s.EndsCommand t := by
  rcases runWord_cases c s with ⟨i, -, heq⟩ | ⟨e, -, heq⟩
  · rcases exec_cases i s with ⟨r, dz, ov, hexec⟩ | ⟨st, -, hexec⟩
    · exact ⟨_, heq.trans hexec, s.endsCommand_complete _ _ _⟩
    · exact ⟨_, heq.trans hexec, s.endsCommand_signalOnly _⟩
  · exact ⟨_, heq, s.endsCommand_signalOnly _⟩

/-! ### The canonical form of IBUF -/

theorem State.wf_perform {s : State} (h : Memory.wf s.ibuf = true) (op : HostOp) :
    Memory.wf (s.perform op).ibuf = true := by
  cases op with
  | reset => exact Memory.wf_nil
  | writeIbuf k v => exact Memory.wf_write v h k.isLt
  | readIbuf k => exact h
  | issue c => exact h
  | readReg r => exact h
  | readStatus => exact h

theorem State.wf_serveHost {s : State} (h : Memory.wf s.ibuf = true) : Memory.wf s.serveHost.ibuf = true := by
  rcases s.serveHost_cases with ⟨op, rest, -, heq⟩ | ⟨op, rest, -, -, heq⟩ | ⟨-, -, heq⟩ <;> rw [heq]
  · exact State.wf_perform (s := { s with held := rest }) h op
  · exact State.wf_perform (s := { s with script := rest }) h op
  · exact h

theorem State.wf_arrive {s : State} (h : Memory.wf s.ibuf = true) (op : HostOp) :
    Memory.wf (s.arrive op).ibuf = true := by
  rcases s.arrive_cases op with ⟨-, heq⟩ | ⟨-, heq⟩ <;> rw [heq]
  · exact Memory.wf_nil
  · exact h

theorem State.wf_waitCycle {s : State} (h : Memory.wf s.ibuf = true) (c : CommandWord) (n : Nat) :
    Memory.wf (s.waitCycle c n).ibuf = true := by
  rcases s.waitCycle_cases c n with ⟨-, heq⟩ | ⟨op, rest, -, heq⟩ <;> rw [heq]
  · exact h
  · exact State.wf_arrive (s := { s with running := some ⟨c, n⟩, script := rest }) h op

/-- Settles O57, by what a step can do. -/
theorem stepKeepsIbufCanonical : Obligations.StepKeepsIbufCanonical := by
  intro s t hwf hstep
  rcases step_cases s with ⟨-, heq⟩ | ⟨c, -, heq⟩ | ⟨c, n, -, heq⟩ <;> rw [heq] at hstep
  · exact Host.Outcome.next.inj hstep ▸ State.wf_serveHost hwf
  · obtain ⟨u, hrun, hends⟩ := runWord_endsCommand c s
    obtain rfl : u = t := Host.Outcome.next.inj (hrun.symm.trans hstep)
    rwa [hends.ibuf]
  · exact Host.Outcome.next.inj hstep ▸ State.wf_waitCycle hwf c n

/-! ### The operands of arithmetic -/

/-- The four arithmetic commands on one destination and two operands (R29). -/
abbrev arithmeticCommands (rd a b : RegIndex) : List Instr := [.add rd a b, .sub rd a b, .mul rd a b, .div rd a b]

/-- R41, R62: an arithmetic command is its engine on the two operand registers, and one ending. -/
theorem exec_arithmetic {i : Instr} {rd a b : RegIndex} (hi : i ∈ arithmeticCommands rd a b) :
    ∃ engine : Register → Register → EngineResult,
      ∀ s, exec i s = .next (s.finish rd (engine (s.readReg a) (s.readReg b))) := by
  simp only [List.mem_cons, List.not_mem_nil, or_false] at hi
  rcases hi with rfl | rfl | rfl | rfl
  · exact ⟨fun x y => addsub x y false, fun _ => rfl⟩
  · exact ⟨fun x y => addsub x y true, fun _ => rfl⟩
  · exact ⟨mul, fun _ => rfl⟩
  · exact ⟨divide, fun _ => rfl⟩

/-- R41: one engine answer ends alike in any two states, in STATUS and, without INV, in the destination. -/
theorem State.finish_dest_status (s u : State) (rd : RegIndex) (o : EngineResult) :
    (s.finish rd o).status = (u.finish rd o).status ∧
      ((s.finish rd o).status ≠ statusINV → (s.finish rd o).readReg rd = (u.finish rd o).readReg rd) := by
  cases o with
  | value r dz ov => simp [State.finish]
  | inv => simp [State.finish]

/-- Settles O56: both states run the same engine on the same operands. -/
theorem arithmeticDependsOnOperandsAlone : Obligations.ArithmeticDependsOnOperandsAlone := by
  intro rd a b s u t w ha hb i hi ht hw
  obtain ⟨engine, heq⟩ := exec_arithmetic hi
  rw [heq, Host.Outcome.next.injEq] at ht hw
  rw [← ht, ← hw, ← ha, ← hb]
  exact s.finish_dest_status u rd _

end Sys2Proof.Machine
end

section
/-! SUPPORT. The host's order (20_memory.md R50 to R52): every step leads toward what the host's operations leave as atomic
transitions one after another, and every run comes to rest there. -/

namespace Sys2Proof.Machine

/-! ### States that agree on what the host can read back -/

/-- The two states hold the same registers, STATUS and IBUF and, where `answers` is asked for, gave the same answers. -/
structure State.Agrees (answers : Prop) (s u : State) : Prop where
  dr : s.dr = u.dr
  status : s.status = u.status
  ibuf : s.ibuf = u.ibuf
  replies : answers → s.replies = u.replies

section
variable {answers : Prop} {s u v : State}

theorem State.Agrees.refl (s : State) : s.Agrees answers s := ⟨rfl, rfl, rfl, fun _ => rfl⟩

/-- The command in progress, what is held, the script and the count of commands are not spoken of. -/
theorem State.agrees_bookkeeping (s : State) (running : Option Running) (held script : List HostOp) (issued : Nat) :
    State.Agrees answers { s with running, held, script, issued } s := ⟨rfl, rfl, rfl, fun _ => rfl⟩

theorem State.Agrees.trans (h : s.Agrees answers u) (h' : u.Agrees answers v) : s.Agrees answers v :=
  ⟨h.dr.trans h'.dr, h.status.trans h'.status, h.ibuf.trans h'.ibuf, fun ha => (h.replies ha).trans (h'.replies ha)⟩

theorem State.Agrees.mono {answers' : Prop} (h : s.Agrees answers u) (hle : answers' → answers) : s.Agrees answers' u :=
  ⟨h.dr, h.status, h.ibuf, fun ha => h.replies (hle ha)⟩

theorem State.Agrees.readReg (h : s.Agrees answers u) (k : RegIndex) : s.readReg k = u.readReg k := by
  rw [State.readReg, State.readReg, h.dr]

theorem State.Agrees.readByte (h : s.Agrees answers u) (k : ByteIndex) : s.readByte k = u.readByte k := by
  rw [State.readByte, State.readByte, h.ibuf]

theorem State.Agrees.operandsR (h : s.Agrees answers u) : operandsR s = operandsR u :=
  List.map_congr_left fun k _ => h.readByte k

theorem State.Agrees.reply (h : s.Agrees answers u) {a a' : Reply} (heq : a = a') :
    (s.reply a).Agrees answers (u.reply a') :=
  ⟨h.dr, h.status, h.ibuf, fun ha => by rw [State.reply_replies, State.reply_replies, h.replies ha, heq]⟩

theorem State.Agrees.writeByte (h : s.Agrees answers u) (k : ByteIndex) (b : Byte) :
    (s.writeByte k b).Agrees answers (u.writeByte k b) :=
  ⟨h.dr, h.status, by rw [State.writeByte_ibuf, State.writeByte_ibuf, h.ibuf], h.replies⟩

theorem State.Agrees.resetBlock (h : s.Agrees answers u) : s.resetBlock.Agrees answers u.resetBlock :=
  ⟨rfl, rfl, rfl, h.replies⟩

theorem State.Agrees.complete (h : s.Agrees answers u) (rd : RegIndex) (r : Register) (st : BitVec 8) :
    (s.complete rd r st).Agrees answers (u.complete rd r st) :=
  ⟨by rw [State.complete_dr, State.complete_dr, h.dr], rfl, h.ibuf, h.replies⟩

theorem State.Agrees.signalOnly (h : s.Agrees answers u) (st : BitVec 8) :
    (s.signalOnly st).Agrees answers (u.signalOnly st) := ⟨h.dr, rfl, h.ibuf, h.replies⟩

theorem State.Agrees.finish (h : s.Agrees answers u) (rd : RegIndex) (o : EngineResult) :
    (s.finish rd o).Agrees answers (u.finish rd o) := by
  cases o with
  | value r dz ov => exact h.complete rd r _
  | inv => exact h.signalOnly _

/-! ### Commands and operations on states that agree -/

theorem State.Agrees.exec_arithmetic (h : s.Agrees answers u) {i : Instr} {rd a b : RegIndex}
    (hi : i ∈ arithmeticCommands rd a b) :
    ∃ t w, exec i s = .next t ∧ exec i u = .next w ∧ t.Agrees answers w := by
  obtain ⟨engine, heq⟩ := Machine.exec_arithmetic hi
  refine ⟨_, _, heq s, heq u, ?_⟩
  rw [h.readReg a, h.readReg b]
  exact h.finish rd _

theorem State.Agrees.exec (h : s.Agrees answers u) (i : Instr) :
    ∃ t w, exec i s = .next t ∧ exec i u = .next w ∧ t.Agrees answers w := by
  cases i with
  | parse rd =>
    refine ⟨_, _, rfl, rfl, ?_⟩
    rw [h.operandsR]
    split
    · exact h.complete rd _ _
    · exact h.signalOnly _
  | add rd a b => exact h.exec_arithmetic (rd := rd) (a := a) (b := b) (by simp)
  | sub rd a b => exact h.exec_arithmetic (rd := rd) (a := a) (b := b) (by simp)
  | mul rd a b => exact h.exec_arithmetic (rd := rd) (a := a) (b := b) (by simp)
  | div rd a b => exact h.exec_arithmetic (rd := rd) (a := a) (b := b) (by simp)

theorem State.Agrees.runWord (h : s.Agrees answers u) (c : CommandWord) :
    ∃ t w, runWord c s = .next t ∧ runWord c u = .next w ∧ t.Agrees answers w := by
  cases hdec : decode c with
  | ok i => simpa only [Machine.runWord, hdec] using h.exec i
  | error e =>
    simp only [Machine.runWord, hdec]
    exact ⟨_, _, rfl, rfl, h.signalOnly _⟩

theorem State.performAtomically_issue {c : CommandWord} {t : State} (hrun : Machine.runWord c s = .next t) :
    s.performAtomically (.issue c) = t := by
  simp only [State.performAtomically, hrun]

theorem State.Agrees.performAtomically (h : s.Agrees answers u) (op : HostOp) :
    (s.performAtomically op).Agrees answers (u.performAtomically op) := by
  cases op with
  | reset => exact h.resetBlock
  | writeIbuf k b => exact h.writeByte k b
  | readIbuf k => exact h.reply (by rw [h.readByte k])
  | issue c =>
    obtain ⟨t, w, hs, hu, htw⟩ := h.runWord c
    rwa [State.performAtomically_issue hs, State.performAtomically_issue hu]
  | readReg r => exact h.reply (by rw [h.readReg r])
  | readStatus => exact h.reply (by rw [h.status])

theorem State.Agrees.foldl_performAtomically (h : s.Agrees answers u) (ops : List HostOp) :
    (ops.foldl State.performAtomically s).Agrees answers (ops.foldl State.performAtomically u) := by
  induction ops generalizing s u with
  | nil => exact h
  | cons op ops ih => exact ih (h.performAtomically op)

end

/-! ### What is still to come of a state -/

/-- The state once the command in progress, if any, has taken its whole effect. -/
def State.settled (s : State) : State :=
  match s.running with
  | none => s
  | some r => s.performAtomically (.issue r.word)

theorem State.settled_of_idle {s : State} (hr : s.running = none) : s.settled = s := by
  simp only [State.settled, hr]

theorem State.settled_of_running {s : State} {c : CommandWord} {n : Nat} (hr : s.running = some ⟨c, n⟩) :
    s.settled = s.performAtomically (.issue c) := by
  simp only [State.settled, hr]

/-- What the host's operations leave as atomic transitions in its order: the command in progress, then those held, then
those it has yet to perform (R51). -/
def State.outcome (s : State) : State := (s.held ++ s.script).foldl State.performAtomically s.settled

theorem State.outcome_of_idle {s : State} (hr : s.running = none) :
    s.outcome = (s.held ++ s.script).foldl State.performAtomically s := by
  rw [State.outcome, State.settled_of_idle hr]

/-- Two states with the same operations to come agree on their outcome where they agree once settled. -/
theorem State.outcome_agrees {answers : Prop} {s u : State} (hops : s.held ++ s.script = u.held ++ u.script)
    (h : s.settled.Agrees answers u.settled) : s.outcome.Agrees answers u.outcome := by
  rw [State.outcome, State.outcome, hops]
  exact h.foldl_performAtomically _

/-- Only an ISSUE is performed otherwise than as its atomic transition: it puts a command in progress. -/
theorem State.perform_cases (s : State) (op : HostOp) :
    (∃ c, op = .issue c) ∨
      (s.performAtomically op = s.perform op ∧ (s.running = none → (s.perform op).running = none)) := by
  cases op with
  | issue c => exact .inl ⟨c, rfl⟩
  | reset => exact .inr ⟨rfl, fun _ => rfl⟩
  | writeIbuf k b => exact .inr ⟨rfl, id⟩
  | readIbuf k => exact .inr ⟨rfl, id⟩
  | readReg r => exact .inr ⟨rfl, id⟩
  | readStatus => exact .inr ⟨rfl, id⟩

/-- R46, R50: an operation served with no command in progress settles to its atomic transition. -/
theorem State.settled_perform {answers : Prop} {s u : State} (hr : s.running = none) (h : s.Agrees answers u)
    (op : HostOp) : (s.perform op).settled.Agrees answers (u.performAtomically op) := by
  rcases s.perform_cases op with ⟨c, rfl⟩ | ⟨hatomic, hidle⟩
  · have hbegun : (s.beginCommand c).Agrees answers u := (s.agrees_bookkeeping _ _ _ _).trans h
    have hsettled : (s.perform (.issue c)).settled = (s.beginCommand c).performAtomically (.issue c) :=
      State.settled_of_running (State.beginCommand_running s c)
    rw [hsettled]
    exact hbegun.performAtomically (.issue c)
  · rw [State.settled_of_idle (hidle hr), ← hatomic]
    exact h.performAtomically op

/-! ### Every step leads toward the outcome -/

/-- How far a state is from rest: the operations to come, then the steps the command in progress still takes. -/
def State.distance (s : State) : Nat × Nat :=
  ((s.held ++ s.script).length, s.running.elim 0 fun r => r.left + 1)

/-- `t` is a step nearer to rest than `s` and has the same outcome; the answers are the same too where no `RESET()` is
yet to come (log 6). -/
structure State.LeadsTo (s t : State) : Prop where
  nearer : Prod.Lex (· < ·) (· < ·) t.distance s.distance
  outcome : t.outcome.Agrees (HostOp.reset ∉ s.script) s.outcome
  script : t.script ⊆ s.script

/-- R50, R51: with no command in progress a step serves the first operation to come; `u` is `s` without it. -/
theorem State.leadsTo_perform {s u : State} {op : HostOp} (hs : s.running = none) (hu : u.running = none)
    (hops : s.held ++ s.script = op :: (u.held ++ u.script)) (hscript : u.script ⊆ s.script)
    (h : u.Agrees (HostOp.reset ∉ s.script) s) : s.LeadsTo (u.perform op) where
  nearer := by
    refine Prod.Lex.left _ _ ?_
    rw [State.perform_held, State.perform_script, hops]
    exact Nat.lt_succ_self _
  outcome := by
    rw [State.outcome_of_idle hs, State.outcome, State.perform_held, State.perform_script, hops]
    exact (State.settled_perform hu h op).foldl_performAtomically _
  script := by rwa [State.perform_script]

/-- R50: the word that is due takes the effect that was to come of it. -/
theorem State.leadsTo_due {s t : State} {c : CommandWord} (hr : s.running = some ⟨c, 0⟩)
    (hrun : runWord c s = .next t) (hends : s.EndsCommand t) : s.LeadsTo t where
  nearer := by
    rw [State.distance, State.distance, hends.held, hends.script, hends.running, hr]
    exact Prod.Lex.right _ Nat.zero_lt_one
  outcome := by
    have hsettled : t.settled = s.settled := by
      rw [State.settled_of_idle hends.running, State.settled_of_running hr, State.performAtomically_issue hrun]
    exact State.outcome_agrees (by rw [hends.held, hends.script]) (hsettled ▸ .refl _)
  script := hends.script ▸ List.Subset.refl _

/-- A waiting step leaves the effect of the command in progress as it was to come. -/
theorem State.settled_wait {answers : Prop} {s u : State} {c : CommandWord} {m n : Nat} (hs : s.running = some ⟨c, m⟩)
    (hu : u.running = some ⟨c, n⟩) (h : s.Agrees answers u) : s.settled.Agrees answers u.settled := by
  rw [State.settled_of_running hs, State.settled_of_running hu]
  exact h.performAtomically _

/-- After a `RESET()` the block is the same whatever came before it (R230). -/
theorem State.resetBlock_agrees (s u : State) : s.resetBlock.Agrees False u.resetBlock :=
  ⟨rfl, rfl, rfl, False.elim⟩

/-- R231, R51: a `RESET()` that ends the command leaves the block it would leave after the command and what was held. -/
theorem State.leadsTo_reset {s : State} {c : CommandWord} {n : Nat} {rest : List HostOp} (hs : s.script = .reset :: rest) :
    s.LeadsTo (s.waitCycle c n) := by
  have hwait : s.waitCycle c n =
      State.resetBlock (State.releaseHeld { s with running := some ⟨c, n⟩, script := rest }) :=
    s.waitCycle_cons c n hs
  have hheld : (s.waitCycle c n).held = [] := by rw [hwait, State.resetBlock_held, State.releaseHeld_held]
  have hscript : (s.waitCycle c n).script = rest := by rw [hwait, State.resetBlock_script, State.releaseHeld_script]
  have hidle : (s.waitCycle c n).running = none := by rw [hwait, State.resetBlock_running]
  refine ⟨Prod.Lex.left _ _ ?_, ?_, ?_⟩
  · simp [hheld, hscript, hs]
    omega
  · rw [State.outcome_of_idle hidle, hheld, hscript, State.outcome, hs, List.nil_append, List.foldl_append, List.foldl_cons]
    refine State.Agrees.foldl_performAtomically (State.Agrees.mono (answers := False) ?_ fun h => h List.mem_cons_self) rest
    rw [hwait]
    exact State.resetBlock_agrees _ _
  · rw [hscript, hs]
    exact List.subset_cons_self _ _

/-- R50: a waiting step holds what arrives behind what is held, so the host's order stays as it is. -/
theorem State.leadsTo_wait {s : State} {c : CommandWord} {n : Nat} (hr : s.running = some ⟨c, n + 1⟩) :
    s.LeadsTo (s.waitCycle c n) := by
  cases hs : s.script with
  | nil =>
    rw [s.waitCycle_nil c n hs]
    refine ⟨?_, State.outcome_agrees rfl (State.settled_wait rfl hr (s.agrees_bookkeeping _ _ _ _)), List.Subset.refl _⟩
    rw [State.distance, State.distance, hr]
    exact Prod.Lex.right _ (Nat.lt_succ_self _)
  | cons op rest =>
    by_cases hop : op = .reset
    · exact State.leadsTo_reset (hop ▸ hs)
    · rw [s.waitCycle_holds c n hs hop]
      refine ⟨?_, State.outcome_agrees (by simp [hs]) (State.settled_wait rfl hr (s.agrees_bookkeeping _ _ _ _)), ?_⟩
      · rw [State.distance, State.distance, hr, hs, List.append_assoc, List.singleton_append]
        exact Prod.Lex.right _ (Nat.lt_succ_self _)
      · rw [hs]
        exact List.subset_cons_self _ _

/-- The block at rest: no command in progress and nothing left to do. -/
structure State.AtRest (s : State) : Prop where
  running : s.running = none
  held : s.held = []
  script : s.script = []

theorem State.AtRest.outcome {s : State} (h : s.AtRest) : s.outcome = s := by
  rw [State.outcome_of_idle h.running, h.held, h.script]
  rfl

/-- Every state is at rest or steps toward its outcome. -/
theorem State.atRest_or_leadsTo (s : State) : s.AtRest ∨ ∃ t, step s = .next t ∧ s.LeadsTo t := by
  rcases step_cases s with ⟨hr, hstep⟩ | ⟨c, hr, hstep⟩ | ⟨c, n, hr, hstep⟩
  · rcases s.serveHost_cases with ⟨op, rest, hh, heq⟩ | ⟨op, rest, hh, hs, heq⟩ | ⟨hh, hs, -⟩
    · rw [heq] at hstep
      exact .inr ⟨_, hstep, State.leadsTo_perform hr hr (by simp [hh]) (by simp) (s.agrees_bookkeeping _ _ _ _)⟩
    · rw [heq] at hstep
      exact .inr ⟨_, hstep,
        State.leadsTo_perform hr hr (by simp [hh, hs]) (by simp [hs]) (s.agrees_bookkeeping _ _ _ _)⟩
    · exact .inl ⟨hr, hh, hs⟩
  · obtain ⟨t, hrun, hends⟩ := runWord_endsCommand c s
    exact .inr ⟨t, hstep.trans hrun, State.leadsTo_due hr hrun hends⟩
  · exact .inr ⟨_, hstep, State.leadsTo_wait hr⟩

/-- R52: every run comes to rest in its outcome, by induction on the distance from rest. -/
theorem State.runs_to_outcome (s : State) :
    ∃ n t, runSteps n s = .next t ∧ t.AtRest ∧ t.Agrees (HostOp.reset ∉ s.script) s.outcome := by
  rcases s.atRest_or_leadsTo with hrest | ⟨t, hstep, hlead⟩
  · exact ⟨0, s, rfl, hrest, hrest.outcome.symm ▸ .refl s⟩
  · obtain ⟨n, w, hrun, hrest, hagree⟩ := State.runs_to_outcome t
    exact ⟨n + 1, w, (runSteps_succ_of_step n hstep).trans hrun, hrest,
      (hagree.mono fun h hmem => h (hlead.script hmem)).trans hlead.outcome⟩
termination_by s.distance
decreasing_by exact hlead.nearer

/-! ### The statement -/

/-- R50: after a due command word the operation held first takes effect, on the state the word left. -/
theorem due_then_held {s : State} {c : CommandWord} {op : HostOp} {rest : List HostOp} (hr : s.running = some ⟨c, 0⟩)
    (hh : s.held = op :: rest) :
    ∃ t, runWord c s = .next t ∧ step s = .next t ∧ t.running = none ∧ t.held = op :: rest ∧
      runSteps 2 s = .next (State.perform { t with held := rest } op) := by
  obtain ⟨t, hrun, hends⟩ := runWord_endsCommand c s
  have hstep : step s = .next t := (step_of_due hr).trans hrun
  have hheld : t.held = op :: rest := hends.held.trans hh
  refine ⟨t, hrun, hstep, hends.running, hheld, ?_⟩
  rw [runSteps_succ_of_step 1 hstep, runSteps_one, step_serves_held hends.running hheld]

/-- Settles O7: one command with an operation held behind it, and a whole run from a state with nothing running or held,
whose outcome is what its script leaves. -/
theorem heldOperationsTakeEffectInOrder : Obligations.HeldOperationsTakeEffectInOrder := by
  refine ⟨fun s c op rest hr hh => due_then_held hr hh, fun s hr hh => ?_⟩
  obtain ⟨n, t, hrun, hrest, hagree⟩ := s.runs_to_outcome
  rw [State.outcome_of_idle hr, hh, List.nil_append] at hagree
  exact ⟨n, t, hrun, hrest.running, hrest.held, hrest.script, hagree.dr, hagree.status, hagree.ibuf, hagree.replies⟩

end Sys2Proof.Machine
end

section
/-! SUPPORT. The 65-bit word of the register read port, field by field (20_memory.md R43). -/

namespace Sys2Proof.Machine

/-- The digits as one hexadecimal number, a nibble each, the most significant digit in the most significant nibble. -/
def nibblesNat (ds : List Digit) : Nat := ds.foldl (fun acc d => acc * 16 + (digitNibble d).toNat) 0

theorem digitNibble_toNat (d : Digit) : (digitNibble d).toNat = d.val := by
  rw [digitNibble, BitVec.toNat_ofNat]
  omega

theorem nibblesNat_append_singleton (ds : List Digit) (d : Digit) : nibblesNat (ds ++ [d]) = nibblesNat ds * 16 + d.val := by
  simp [nibblesNat, digitNibble_toNat]

theorem nibblesNat_lt (ds : List Digit) : nibblesNat ds < 16 ^ ds.length := by
  induction ds using List.reverseRecOn with
  | nil => simp [nibblesNat]
  | append_singleton ds d ih =>
    rw [nibblesNat_append_singleton, List.length_append, List.length_singleton, pow_succ]
    omega

/-- Digit `k` stands in the nibble with as many nibbles below it as there are digits behind it. -/
theorem nibblesNat_nibble {ds : List Digit} {k : Nat} (hk : k < ds.length) :
    nibblesNat ds / 16 ^ (ds.length - 1 - k) % 16 = ds[k].val := by
  induction ds using List.reverseRecOn with
  | nil => simp at hk
  | append_singleton ds d ih =>
    rw [nibblesNat_append_singleton]
    by_cases hlast : k < ds.length
    · have hplace : (ds ++ [d]).length - 1 - k = (ds.length - 1 - k) + 1 := by simp; omega
      have hdrop : (nibblesNat ds * 16 + d.val) / 16 = nibblesNat ds := by omega
      rw [hplace, pow_succ', ← Nat.div_div_eq_div_mul, hdrop, ih hlast, List.getElem_append_left hlast]
    · obtain rfl : k = ds.length := by simp at hk; omega
      simp
      omega

theorem Register.nibblesNat_mant_lt (r : Register) : nibblesNat r.mant.toList < 2 ^ 56 := by
  simpa using nibblesNat_lt r.mant.toList

/-- R43: the sign, the nibbles and the exponent lie side by side in the port word. -/
theorem Register.pack_toNat (r : Register) :
    r.pack.toNat = r.sign.toNat * 2 ^ 64 + nibblesNat r.mant.toList * 2 ^ 8 + r.exp.toNat := by
  have hsign := r.sign.toNat_le
  have hmant := r.nibblesNat_mant_lt
  have hexp := r.exp.isLt
  rw [Register.pack, BitVec.toNat_ofNat]
  exact Nat.mod_eq_of_lt (by simp only [nibblesNat] at hmant ⊢; omega)

/-- R43: above the exponent stand the nibbles, and above them the sign. -/
theorem Register.pack_toNat_div (r : Register) :
    r.pack.toNat / 2 ^ 8 = nibblesNat r.mant.toList + r.sign.toNat * 2 ^ 56 := by
  have hexp := r.exp.isLt
  rw [r.pack_toNat]
  omega

theorem Register.pack_sign (r : Register) : r.pack.getLsbD 64 = r.sign := by
  have hmant := r.nibblesNat_mant_lt
  have hexp := r.exp.isLt
  have htop : r.pack.toNat / 2 ^ 64 = r.sign.toNat := by rw [r.pack_toNat]; omega
  rw [BitVec.getLsbD, Nat.testBit_eq_decide_div_mod_eq, htop]
  cases r.sign <;> rfl

theorem Register.pack_exp (r : Register) : r.pack.extractLsb' 0 8 = r.exp := by
  have hexp := r.exp.isLt
  apply BitVec.eq_of_toNat_eq
  rw [BitVec.extractLsb'_toNat, Nat.shiftRight_zero, r.pack_toNat]
  omega

theorem Register.pack_digit (r : Register) {k : Nat} (hk : k < 14) :
    r.pack.extractLsb' (60 - 4 * k) 4 = BitVec.ofNat 4 r.mant[k].val := by
  have hplace : 2 ^ (60 - 4 * k) = 2 ^ 8 * 16 ^ (13 - k) := by
    rw [show 16 = 2 ^ 4 from rfl, ← pow_mul, ← pow_add]
    congr 1
    omega
  have hsign : r.sign.toNat * 2 ^ 56 = r.sign.toNat * 16 ^ k * 16 * 16 ^ (13 - k) := by
    rw [mul_assoc, mul_assoc, ← pow_succ', ← pow_add, show k + (13 - k + 1) = 14 by omega]
    norm_num
  have hnibble : nibblesNat r.mant.toList / 16 ^ (13 - k) % 16 = r.mant[k].val := by
    have hbehind : 13 - k = r.mant.toList.length - 1 - k := by simp
    rw [hbehind, nibblesNat_nibble (by simpa using hk), Vector.getElem_toList]
  apply BitVec.eq_of_toNat_eq
  rw [BitVec.extractLsb'_toNat, Nat.shiftRight_eq_div_pow, hplace, ← Nat.div_div_eq_div_mul, r.pack_toNat_div, hsign,
    Nat.add_mul_div_right _ _ (by positivity), BitVec.toNat_ofNat]
  omega

/-- Settles O10: the three fields of the port word. -/
theorem portWordLayout : Obligations.PortWordLayout :=
  fun r => ⟨r.pack_sign, fun _ hk => r.pack_digit hk, r.pack_exp⟩

end Sys2Proof.Machine
end

section
/-! SUPPORT. The fields of a command word, the decoder branch by branch, and the statements about decoding and about
running a due word (30_encoding.md R60, R63, R66, R67, R68). -/

namespace Sys2Proof.Machine

open Sys2Proof.Laws.EncodingFits (opField_assemble rdField_assemble rs1Field_assemble rs2Field_assemble)

/-! ### The fields of a word -/

@[simp] theorem indexField_rdField (c : CommandWord) : indexField (rdField c) = c.extractLsb' 8 4 := rfl

@[simp] theorem indexField_rs1Field (c : CommandWord) : indexField (rs1Field c) = c.extractLsb' 4 4 := rfl

@[simp] theorem indexField_rs2Field (c : CommandWord) : indexField (rs2Field c) = c.extractLsb' 0 4 := rfl

/-- R60, R68: the four fields are all of a word, each at its place. -/
theorem assemble_fields (c : CommandWord) : assemble (opField c) (rdField c) (rs1Field c) (rs2Field c) = c := by
  apply BitVec.eq_of_getLsbD_eq
  intro k hk
  interval_cases k <;> simp [assemble, opField]

/-- R61, R66: the low byte of a word is its two source fields. -/
theorem lowByte_eq_zero_iff (c : CommandWord) : c.extractLsb' 0 8 = 0x00#8 ↔ rs1Field c = 0 ∧ rs2Field c = 0 := by
  simp only [rs1Field, rs2Field, BitVec.toNat_eq, Fin.ext_iff, BitVec.val_toFin, BitVec.extractLsb'_toNat,
    Nat.shiftRight_eq_div_pow, BitVec.toNat_ofNat, Fin.val_zero]
  omega

/-- R66: the word of a command in format R leaves the low byte zero. -/
theorem lowByte_assemble (op : BitVec 4) (rd : RegIndex) : (assemble op rd 0 0).extractLsb' 0 8 = 0x00#8 :=
  (lowByte_eq_zero_iff _).2 ⟨rs1Field_assemble op rd 0 0, rs2Field_assemble op rd 0 0⟩

/-- R66: the check for reserved words, on the fields themselves. -/
theorem reservedWord_iff (c : CommandWord) :
    reservedWord c = true ↔
      (opField c = 0x0#4 ∨ 0x6#4 ≤ opField c) ∨ (opField c = 0x1#4 ∧ c.extractLsb' 0 8 ≠ 0x00#8) := by
  simp [reservedWord, opField, BitVec.toNat_eq, BitVec.le_def]

/-- R66: no reserved word has the opcode of ADD, SUB, MUL or DIV. -/
theorem opField_ne_of_reservedWord {c : CommandWord} (h : reservedWord c = true) {op : BitVec 4} (hlo : 0x2#4 ≤ op)
    (hhi : op ≤ 0x5#4) : opField c ≠ op := by
  rintro rfl
  rcases (reservedWord_iff c).1 h with (hop | hop) | ⟨hop, -⟩ <;> bv_omega

/-! ### What the decoder answers -/

/-- R67: everything the decoder can answer, with the fields it answers so for. -/
theorem decode_cases (c : CommandWord) :
    (opField c = 0x1#4 ∧ c.extractLsb' 0 8 = 0x00#8 ∧ decode c = .ok (.parse (rdField c))) ∨
      (opField c = 0x2#4 ∧ decode c = .ok (.add (rdField c) (rs1Field c) (rs2Field c))) ∨
      (opField c = 0x3#4 ∧ decode c = .ok (.sub (rdField c) (rs1Field c) (rs2Field c))) ∨
      (opField c = 0x4#4 ∧ decode c = .ok (.mul (rdField c) (rs1Field c) (rs2Field c))) ∨
      (opField c = 0x5#4 ∧ decode c = .ok (.div (rdField c) (rs1Field c) (rs2Field c))) ∨
      (reservedWord c = true ∧ ∃ e, decode c = .error e) := by
  by_cases h1 : opField c = 0x1#4
  · by_cases hlow : c.extractLsb' 0 8 = 0x00#8
    · exact .inl ⟨h1, hlow, by simp [decode, h1, hlow]⟩
    · have hres : reservedWord c = true := (reservedWord_iff c).2 (.inr ⟨h1, hlow⟩)
      simp [decode, h1, hlow, hres]
  by_cases h2 : opField c = 0x2#4
  · simp [decode, h2]
  by_cases h3 : opField c = 0x3#4
  · simp [decode, h3]
  by_cases h4 : opField c = 0x4#4
  · simp [decode, h4]
  by_cases h5 : opField c = 0x5#4
  · simp [decode, h5]
  have hop : opField c = 0x0#4 ∨ 0x6#4 ≤ opField c := by bv_omega
  have hres : reservedWord c = true := (reservedWord_iff c).2 (.inl hop)
  simp [decode, h1, h2, h3, h4, h5, hres]

/-- R63, R67: the decoder reads back the instruction a word was made from. -/
theorem decode_encode (i : Instr) : decode (encode i) = .ok i := by
  cases i with
  | parse rd => simp [decode, encode, opField_assemble, rdField_assemble, lowByte_assemble]
  | _ => simp [decode, encode, opField_assemble, rdField_assemble, rs1Field_assemble, rs2Field_assemble]

/-- R63, R66: no two words stand for one instruction, and no bit of a word is ignored. -/
theorem encode_of_decode_ok {c : CommandWord} {i : Instr} (h : decode c = .ok i) : encode i = c := by
  rcases decode_cases c with ⟨hop, hlow, hd⟩ | ⟨hop, hd⟩ | ⟨hop, hd⟩ | ⟨hop, hd⟩ | ⟨hop, hd⟩ | ⟨-, e, hd⟩
  · obtain ⟨hrs1, hrs2⟩ := (lowByte_eq_zero_iff c).1 hlow
    cases hd.symm.trans h
    simpa [encode, hop, hrs1, hrs2] using assemble_fields c
  · cases hd.symm.trans h
    simpa [encode, hop] using assemble_fields c
  · cases hd.symm.trans h
    simpa [encode, hop] using assemble_fields c
  · cases hd.symm.trans h
    simpa [encode, hop] using assemble_fields c
  · cases hd.symm.trans h
    simpa [encode, hop] using assemble_fields c
  · cases hd.symm.trans h

/-- R66: the decoder rejects a word exactly where the check for reserved words says so. -/
theorem decode_error_iff_reservedWord (c : CommandWord) : (∃ e, decode c = .error e) ↔ reservedWord c = true := by
  rcases decode_cases c with ⟨hop, hlow, hd⟩ | ⟨hop, hd⟩ | ⟨hop, hd⟩ | ⟨hop, hd⟩ | ⟨hop, hd⟩ | ⟨hres, herr⟩
  · simp [hd, reservedWord_iff, hop, hlow]
  · simp [hd, reservedWord_iff, hop]
  · simp [hd, reservedWord_iff, hop]
  · simp [hd, reservedWord_iff, hop]
  · simp [hd, reservedWord_iff, hop]
  · exact iff_of_true herr hres

/-! ### A due word -/

theorem runWord_of_decode_ok {c : CommandWord} {i : Instr} (h : decode c = .ok i) (s : State) :
    runWord c s = exec i s := by
  simp [runWord, h]

theorem runWord_of_decode_error {c : CommandWord} (h : ∃ e, decode c = .error e) (s : State) :
    runWord c s = .next (s.signalOnly statusILL) := by
  obtain ⟨e, he⟩ := h
  simp [runWord, he]

/-- R67: the whole procedure, from the fields of the word to its effect. -/
theorem runWord_eq (c : CommandWord) (s : State) :
    runWord c s =
      if opField c = 0x1#4 ∧ c.extractLsb' 0 8 = 0x00#8 then exec (.parse (rdField c)) s
      else if opField c = 0x2#4 then exec (.add (rdField c) (rs1Field c) (rs2Field c)) s
      else if opField c = 0x3#4 then exec (.sub (rdField c) (rs1Field c) (rs2Field c)) s
      else if opField c = 0x4#4 then exec (.mul (rdField c) (rs1Field c) (rs2Field c)) s
      else if opField c = 0x5#4 then exec (.div (rdField c) (rs1Field c) (rs2Field c)) s
      else .next (s.signalOnly statusILL) := by
  rcases decode_cases c with ⟨hop, hlow, hd⟩ | ⟨hop, hd⟩ | ⟨hop, hd⟩ | ⟨hop, hd⟩ | ⟨hop, hd⟩ | ⟨hres, herr⟩
  · simp [runWord_of_decode_ok hd, hop, hlow]
  · simp [runWord_of_decode_ok hd, hop]
  · simp [runWord_of_decode_ok hd, hop]
  · simp [runWord_of_decode_ok hd, hop]
  · simp [runWord_of_decode_ok hd, hop]
  · have hparse : ¬(opField c = 0x1#4 ∧ c.extractLsb' 0 8 = 0x00#8) := by
      rintro ⟨hop, hlow⟩
      simp [reservedWord_iff, hop, hlow] at hres
    simp [runWord_of_decode_error herr, if_neg hparse, opField_ne_of_reservedWord hres]

/-! ### The statements -/

/-- Settles O11: decoding undoes encoding, for every instruction. -/
theorem decodeEncodeRoundTrip : Obligations.DecodeEncodeRoundTrip := fun i _ => decode_encode i

/-- Settles O12: the fields the decoder read are the whole word. -/
theorem encodeDecodeRoundTrip : Obligations.EncodeDecodeRoundTrip := fun _ _ => encode_of_decode_ok

/-- Settles O13, by the check for reserved words. -/
theorem decoderRejectsExactlyReservedWords : Obligations.DecoderRejectsExactlyReservedWords :=
  fun c => (decode_error_iff_reservedWord c).trans (reservedWord_iff c)

/-- Settles O14: five words are made from their instructions, two are reserved. -/
theorem writtenOutWordsDecode : Obligations.WrittenOutWordsDecode :=
  ⟨decode_encode (.parse 15), decode_encode (.add 0 1 2), decode_encode (.sub 2 0 1), decode_encode (.mul 3 3 3),
    decode_encode (.div 15 15 15), (decode_error_iff_reservedWord _).2 (by decide),
    (decode_error_iff_reservedWord _).2 (by decide)⟩

/-- Settles O15: the step at a due word runs what it decodes to. -/
theorem stepRunsDecodedCommand : Obligations.StepRunsDecodedCommand :=
  fun s _ _ hr hdec _ => (step_of_due hr).trans (runWord_of_decode_ok hdec s)

/-- Settles O16: the step at a due word runs it, and a word runs as the procedure says of its fields. -/
theorem decodeAndRunProcedure : Obligations.DecodeAndRunProcedure :=
  fun s c hr => (step_of_due hr).trans (runWord_eq c s)

end Sys2Proof.Machine
end

section
/-! SUPPORT. The digit primitives branch by branch, the escaping carry and borrow of a whole buffer, the double-dabble
conversion round by round, and the statements about digits, scratch buffers and exponents (40_primitives.md R80 to R95). -/

namespace Sys2Proof.Machine

/-! ### The digit primitives -/

/-- R80: the branch above 9. -/
theorem digitAddCarry_of_gt {d1 d2 : Digit} {cin : Bool} (h : d1.val + d2.val + cin.toNat > 9) :
    (digitAddCarry d1 d2 cin).1.val = (d1.val + d2.val + cin.toNat + 6) % 16 ∧ (digitAddCarry d1 d2 cin).2 = true := by
  simp only [digitAddCarry, dif_pos h, and_self]

/-- R80: the branch up to 9. -/
theorem digitAddCarry_of_le {d1 d2 : Digit} {cin : Bool} (h : ¬ d1.val + d2.val + cin.toNat > 9) :
    (digitAddCarry d1 d2 cin).1.val = (d1.val + d2.val + cin.toNat) % 16 ∧ (digitAddCarry d1 d2 cin).2 = false := by
  simp only [digitAddCarry, dif_neg h, and_self]

/-- R81: the branch below 0. -/
theorem digitSubBorrow_of_neg {d1 d2 : Digit} {bin : Bool} (h : (d1.val : Int) - d2.val - bin.toNat < 0) :
    ((digitSubBorrow d1 d2 bin).1.val : Int) = (d1.val : Int) - d2.val - bin.toNat + 10 ∧
      (digitSubBorrow d1 d2 bin).2 = true := by
  have hb := bin.toNat_le
  simp only [digitSubBorrow, dif_pos h, and_true]
  omega

/-- R81: the branch from 0 up. -/
theorem digitSubBorrow_of_nonneg {d1 d2 : Digit} {bin : Bool} (h : ¬ (d1.val : Int) - d2.val - bin.toNat < 0) :
    ((digitSubBorrow d1 d2 bin).1.val : Int) = (d1.val : Int) - d2.val - bin.toNat ∧
      (digitSubBorrow d1 d2 bin).2 = false := by
  simp only [digitSubBorrow, dif_neg h, and_true]
  omega

theorem digitProduct_lt (d1 d2 : Digit) : d1.val * d2.val < 100 := by
  have : d1.val * d2.val ≤ 9 * 9 := Nat.mul_le_mul (by omega) (by omega)
  omega

/-- R82: below 100 the two digits of a number do not meet in its packed byte. -/
theorem packDecimal_toNat {p : Nat} (hp : p < 100) : (packDecimal p).toNat = p / 10 * 16 + p % 10 := by
  have hunits : p % 10 < 2 ^ 4 := by omega
  have htens : (p / 10) <<< 4 = p / 10 * 16 := Nat.shiftLeft_eq _ _
  rw [packDecimal, BitVec.toNat_or, BitVec.toNat_shiftLeft, BitVec.toNat_ofNat, BitVec.toNat_ofNat,
    Nat.mod_eq_of_lt (show p / 10 < 2 ^ 8 by omega), Nat.mod_eq_of_lt (show p % 10 < 2 ^ 8 by omega),
    Nat.mod_eq_of_lt (by omega), ← Nat.shiftLeft_add_eq_or_of_lt hunits, htens]

/-! ### Double-dabble -/

/-- The last three decimal digits of a number, a nibble each: what the loop of R83 holds of the bits it has taken in. -/
def bcdOf (n : Nat) : BitVec 12 := BitVec.ofNat 12 (n / 100 % 10 * 256 + n / 10 % 10 * 16 + n % 10)

theorem bcdOf_of_digits (k : Nat) {h t u : Nat} (hh : h ≤ 9) (ht : t ≤ 9) (hu : u ≤ 9) :
    (bcdOf (1000 * k + 100 * h + 10 * t + u)).toNat = h * 256 + t * 16 + u := by
  rw [bcdOf, BitVec.toNat_ofNat, show (1000 * k + 100 * h + 10 * t + u) / 100 % 10 = h by omega,
    show (1000 * k + 100 * h + 10 * t + u) / 10 % 10 = t by omega,
    show (1000 * k + 100 * h + 10 * t + u) % 10 = u by omega]
  omega

/-- The nibbles of the loop's word are the decimal digits. -/
theorem bcdOf_nibbles (k : Nat) {h t u : Nat} (hh : h ≤ 9) (ht : t ≤ 9) (hu : u ≤ 9) :
    ((bcdOf (1000 * k + 100 * h + 10 * t + u)).extractLsb' 8 4).toNat = h ∧
      ((bcdOf (1000 * k + 100 * h + 10 * t + u)).extractLsb' 4 4).toNat = t ∧
      ((bcdOf (1000 * k + 100 * h + 10 * t + u)).extractLsb' 0 4).toNat = u := by
  simp only [BitVec.extractLsb'_toNat, Nat.shiftRight_eq_div_pow, bcdOf_of_digits k hh ht hu]
  omega

theorem exists_decimal_digits (n : Nat) :
    ∃ k h t u, h ≤ 9 ∧ t ≤ 9 ∧ u ≤ 9 ∧ n = 1000 * k + 100 * h + 10 * t + u :=
  ⟨n / 1000, n / 100 % 10, n / 10 % 10, n % 10, by omega, by omega, by omega, by omega⟩

/-- R83: a corrected digit has what its double carries out of the nibble in its top bit. -/
theorem addThree_toNat {n : BitVec 4} (h : n.toNat ≤ 9) : (addThree n).toNat = n.toNat / 5 * 8 + n.toNat % 5 := by
  rw [addThree]
  split <;> bv_omega

/-- A word before another stands above its places. -/
theorem toNat_append_eq_add {m n : Nat} (x : BitVec m) (y : BitVec n) :
    (x ++ y).toNat = x.toNat * 2 ^ n + y.toNat := by
  rw [BitVec.toNat_append, ← Nat.shiftLeft_add_eq_or_of_lt y.isLt, Nat.shiftLeft_eq]

/-- Shifting a bit in doubles the word, whose top bit is lost, and adds the bit. -/
theorem shiftIn_toNat (w : BitVec 12) (bit : Bool) :
    (w <<< 1 ||| (BitVec.ofBool bit).setWidth 12).toNat = 2 * (w.toNat % 2048) + bit.toNat := by
  have hbit : bit.toNat < 2 ^ 1 := bit.toNat_lt
  have hdouble : (w.toNat <<< 1) % 2 ^ 12 = (w.toNat % 2048) <<< 1 := by
    rw [Nat.shiftLeft_eq, Nat.shiftLeft_eq]
    omega
  rw [BitVec.toNat_or, BitVec.toNat_shiftLeft, BitVec.toNat_setWidth, BitVec.toNat_ofBool,
    Nat.mod_eq_of_lt (show bit.toNat < 2 ^ 12 by omega), hdouble, ← Nat.shiftLeft_add_eq_or_of_lt hbit,
    Nat.shiftLeft_eq]
  omega

/-- R83: one round, as arithmetic on the corrected nibbles. -/
theorem doubleDabbleRound_toNat (bcd : BitVec 12) (bit : Bool) :
    (doubleDabbleRound bcd bit).toNat =
      2 * (((addThree (bcd.extractLsb' 8 4)).toNat * 256 + (addThree (bcd.extractLsb' 4 4)).toNat * 16 +
        (addThree (bcd.extractLsb' 0 4)).toNat) % 2048) + bit.toNat := by
  rw [doubleDabbleRound, shiftIn_toNat, toNat_append_eq_add, toNat_append_eq_add]
  omega

/-- R83: correcting the nibbles and shifting a bit in doubles the decimal number and adds the bit. -/
theorem doubleDabbleRound_bcdOf (n : Nat) (bit : Bool) :
    doubleDabbleRound (bcdOf n) bit = bcdOf (2 * n + bit.toNat) := by
  have hbit := bit.toNat_le
  obtain ⟨k, h, t, u, hh, ht, hu, rfl⟩ := exists_decimal_digits n
  obtain ⟨hhundreds, htens, hunits⟩ := bcdOf_nibbles k hh ht hu
  have hcarry : 2 * (1000 * k + 100 * h + 10 * t + u) + bit.toNat =
      1000 * (2 * k + h / 5) + 100 * (2 * (h % 5) + t / 5) + 10 * (2 * (t % 5) + u / 5) +
        (2 * (u % 5) + bit.toNat) := by omega
  apply BitVec.eq_of_toNat_eq
  rw [doubleDabbleRound_toNat, addThree_toNat (by omega), addThree_toNat (by omega), addThree_toNat (by omega),
    hhundreds, htens, hunits, hcarry, bcdOf_of_digits _ (by omega) (by omega) (by omega)]
  omega

/-- R83: the rounds for bits `k - 1` to 0 bring the digits of the bits above to those of the whole number. -/
theorem foldl_doubleDabbleRound (p : BitVec 8) (k : Nat) :
    (List.range k).reverse.foldl (fun bcd j => doubleDabbleRound bcd (p.getLsbD j)) (bcdOf (p.toNat / 2 ^ k)) =
      bcdOf p.toNat := by
  induction k with
  | zero => simp
  | succ k ih =>
    have hbit : 2 * (p.toNat / 2 ^ (k + 1)) + (p.getLsbD k).toNat = p.toNat / 2 ^ k := by
      rw [BitVec.getLsbD, Nat.toNat_testBit, pow_succ, ← Nat.div_div_eq_div_mul]
      omega
    rw [List.range_succ, List.reverse_append, List.reverse_singleton, List.singleton_append, List.foldl_cons,
      doubleDabbleRound_bcdOf, hbit, ih]

/-- R83: double-dabble keeps the last two decimal digits of a byte. -/
theorem doubleDabble_eq (p : BitVec 8) : doubleDabble p = (bcdOf p.toNat).extractLsb' 0 8 := by
  have hstart : p.toNat / 2 ^ 8 = 0 := Nat.div_eq_of_lt p.isLt
  have hloop := foldl_doubleDabbleRound p 8
  rw [hstart] at hloop
  rw [← hloop]
  rfl

/-- R83: double-dabble is the conversion of R82 on every number of two digits. -/
theorem doubleDabble_eq_packDecimal {p : Nat} (hp : p < 100) : doubleDabble (BitVec.ofNat 8 p) = packDecimal p := by
  have hbyte : (BitVec.ofNat 8 p).toNat = 1000 * 0 + 100 * 0 + 10 * (p / 10) + p % 10 := by
    rw [BitVec.toNat_ofNat, Nat.mod_eq_of_lt (by omega)]
    omega
  apply BitVec.eq_of_toNat_eq
  rw [doubleDabble_eq, BitVec.extractLsb'_toNat, Nat.shiftRight_zero, hbyte,
    bcdOf_of_digits 0 (by omega) (by omega) (by omega), packDecimal_toNat hp]
  omega

/-! ### What leaves a buffer at its top -/

/-- R91: the sum buffer is the sum modulo the buffers' range. -/
theorem digitsNat_addBuf_mod {a b : Buf} (h : a.length = b.length) :
    digitsNat (addBuf a b).1 = (digitsNat a + digitsNat b) % 10 ^ a.length := by
  have hlt := digitsNat_lt (addBuf a b).1
  rw [length_addBuf, ← h, min_self] at hlt
  rw [← digitsNat_addBuf h, Nat.add_mul_mod_self_left, Nat.mod_eq_of_lt hlt]

/-- R91: a carry escapes exactly where the sum passes the buffers' range. -/
theorem addBuf_carry_iff {a b : Buf} (h : a.length = b.length) :
    (addBuf a b).2 = true ↔ 10 ^ a.length ≤ digitsNat a + digitsNat b := by
  constructor
  · intro hcarry
    have hval := digitsNat_addBuf h
    rw [hcarry, Bool.toNat_true] at hval
    omega
  · intro hle
    by_contra hcarry
    have hval := digitsNat_addBuf h
    have hlt := digitsNat_lt (addBuf a b).1
    rw [length_addBuf, ← h, min_self] at hlt
    rw [Bool.eq_false_of_not_eq_true hcarry, Bool.toNat_false] at hval
    omega

/-- R92: the difference buffer is the difference modulo the buffers' range. -/
theorem digitsNat_subBuf_mod {a b : Buf} (h : a.length = b.length) :
    (digitsNat (subBuf a b).1 : Int) = ((digitsNat a : Int) - digitsNat b) % 10 ^ a.length := by
  have hlt := digitsNat_lt (subBuf a b).1
  rw [length_subBuf, ← h, min_self] at hlt
  have hval : (digitsNat a : Int) - digitsNat b =
      digitsNat (subBuf a b).1 - 10 ^ a.length * (subBuf a b).2.toNat := by
    have hcast := congrArg (Nat.cast (R := Int)) (digitsNat_subBuf h)
    push_cast at hcast
    linear_combination -hcast
  rw [hval, Int.sub_mul_emod_self_left, Int.emod_eq_of_lt (by positivity) (by exact_mod_cast hlt)]

/-- R92: a borrow escapes exactly where the first number is the smaller. -/
theorem subBuf_borrow_iff {a b : Buf} (h : a.length = b.length) :
    (subBuf a b).2 = true ↔ digitsNat a < digitsNat b := by
  constructor
  · intro hborrow
    by_contra hge
    obtain ⟨hnone, -⟩ := subBuf_of_le h (not_lt.mp hge)
    exact Bool.false_ne_true (hnone.symm.trans hborrow)
  · intro hlt
    by_contra hborrow
    have hval := digitsNat_subBuf h
    rw [Bool.eq_false_of_not_eq_true hborrow, Bool.toNat_false] at hval
    omega

/-- R88: `n` right shifts drop `n` digits. -/
theorem digitsNat_shiftRight {b : Buf} (h : b.length = 16) (n : Nat) :
    digitsNat (shiftRight b n) = digitsNat b / 10 ^ n := by
  induction n with
  | zero => simp [shiftRight]
  | succ n ih =>
    have hne : shiftRight b n ≠ [] := List.ne_nil_of_length_pos (by rw [length_shiftRight h]; omega)
    rw [shiftRight, digitsNat_shiftRightOne hne, ih, Nat.div_div_eq_div_mul, pow_succ]

/-! ### Exponents -/

/-- R94: what is stored of an exact exponent. -/
theorem storeExp_toNat (e : Int) : ((storeExp e).toNat : Int) = e % 256 := by
  rw [storeExp, BitVec.toNat_ofNat]
  omega

theorem expOverflow_iff (e : Int) : expOverflow e = true ↔ e < 1 ∨ 255 < e := by simp [expOverflow]

/-- R95: the exponent difference is the distance of the stored values. -/
theorem expDiff_eq_abs (ex ey : BitVec 8) : (expDiff ex ey : Int) = |(ex.toNat : Int) - ey.toNat| :=
  Int.natCast_natAbs _

/-! ### The statements -/

/-- Settles O20, by the laws of the sum buffer and of its carry at any length. -/
theorem addBufAddsModulo : Obligations.AddBufAddsModulo := by
  intro a b ha hb
  have hlen := ha.trans hb.symm
  rw [← ha]
  exact ⟨digitsNat_addBuf_mod hlen, addBuf_carry_iff hlen⟩

/-- Settles O21, by the laws of the difference buffer and of its borrow at any length. -/
theorem subBufSubtractsModulo : Obligations.SubBufSubtractsModulo := by
  intro a b ha hb
  have hlen := ha.trans hb.symm
  rw [← ha]
  exact ⟨digitsNat_subBuf_mod hlen, subBuf_borrow_iff hlen⟩

/-- Settles O22: the comparison of two buffers of one length. -/
theorem compareGeIsNumeric : Obligations.CompareGeIsNumeric := fun _ _ ha hb => compareGe_iff (ha.trans hb.symm)

/-- Settles O23: the right shifts by induction on their number, the left shift at once. -/
theorem shiftsScaleByTen : Obligations.ShiftsScaleByTen :=
  fun _ h => ⟨digitsNat_shiftRight h, digitsNat_shiftLeftOne⟩

/-- Settles O17, by the two branches of the adjustment. -/
theorem digitAddCarryAdjustsBySix : Obligations.DigitAddCarryAdjustsBySix := by
  intro d1 d2 cin s
  by_cases h : s > 9
  · obtain ⟨hsum, hcarry⟩ := digitAddCarry_of_gt h
    exact ⟨by rw [hsum, if_pos h], iff_of_true hcarry h, digitAddCarry_sum d1 d2 cin⟩
  · obtain ⟨hsum, hcarry⟩ := digitAddCarry_of_le h
    exact ⟨by rw [hsum, if_neg h], iff_of_false (by simp [hcarry]) h, digitAddCarry_sum d1 d2 cin⟩

/-- Settles O18, by the two branches of the adjustment. -/
theorem digitSubBorrowAdjustsByTen : Obligations.DigitSubBorrowAdjustsByTen := by
  intro d1 d2 bin t
  by_cases h : t < 0
  · obtain ⟨hdiff, hborrow⟩ := digitSubBorrow_of_neg h
    exact ⟨by rw [hdiff, if_pos h], iff_of_true hborrow h⟩
  · obtain ⟨hdiff, hborrow⟩ := digitSubBorrow_of_nonneg h
    exact ⟨by rw [hdiff, if_neg h], iff_of_false (by simp [hborrow]) h⟩

/-- Settles O19: a product of two digits has two digits, where both conversions are the same. -/
theorem digitProductIsPackedDecimal : Obligations.DigitProductIsPackedDecimal :=
  fun d1 d2 => ⟨packDecimal_toNat (digitProduct_lt d1 d2), doubleDabble_eq_packDecimal (digitProduct_lt d1 d2)⟩

/-- Settles O24: the bias cancels in the exact exponents; what is stored of them, and when they overflow. -/
theorem exponentArithmetic : Obligations.ExponentArithmetic := by
  refine ⟨fun ex ey => ⟨?_, ?_, expDiff_eq_abs ex ey⟩, fun e => ⟨storeExp_toNat e, expOverflow_iff e⟩⟩
  · simp only [expAdd, expInt, Config.bias]
    omega
  · simp only [expSub, expInt, Config.bias]
    omega

end Sys2Proof.Machine
end

section
/-! SUPPORT. The text of a record: its character classes, its body and the exponent field, and which records are well formed
(41_parse.md R111 to R114). -/

namespace Sys2Proof.Machine

/-! ### Characters -/

theorem isDigitChar_iff {ch : Byte} : isDigitChar ch = true ↔ 0x30#8 ≤ ch ∧ ch ≤ 0x39#8 := by simp [isDigitChar]

/-- R113: the digit of a digit character is its code less 0x30. -/
theorem charDigit_val {ch : Byte} (h : isDigitChar ch = true) : (charDigit ch).val = textDigit ch := by
  obtain ⟨-, hle⟩ := isDigitChar_iff.mp h
  have hle' : ch.toNat ≤ 0x39 := BitVec.le_def.mp hle
  exact Nat.mod_eq_of_lt (by omega)

/-- A run of digit characters stands for the number of its digits. -/
theorem textNat_eq_digitsNat {cs : List Byte} (h : ∀ ch ∈ cs, isDigitChar ch = true) :
    textNat cs = digitsNat (cs.map charDigit) := by
  induction cs using List.reverseRecOn with
  | nil => rfl
  | append_singleton cs ch ih =>
    have hinit : textNat cs = digitsNat (cs.map charDigit) := ih fun x hx => h x (by simp [hx])
    have hlast := charDigit_val (h ch (by simp))
    rw [List.map_append, digitsNat_append, ← hinit]
    simp [textNat, digitsNat_cons, hlast, mul_comm]

/-! ### The body of the mantissa field -/

/-- R112: a field is its body and spaces behind it. -/
theorem exists_fieldBody_append (f : List Byte) : ∃ n, f = fieldBody f ++ List.replicate n chSpace := by
  have hspaces : f.rtakeWhile (· == chSpace) = List.replicate (f.rtakeWhile (· == chSpace)).length chSpace :=
    List.eq_replicate_iff.mpr ⟨rfl, fun ch hch => by simpa using List.mem_rtakeWhile_imp hch⟩
  refine ⟨(f.rtakeWhile (· == chSpace)).length, ?_⟩
  rw [← hspaces]
  exact (List.rdropWhile_append_rtakeWhile ..).symm

/-- R112: characters that are no spaces, with spaces behind them, are the body of that field. -/
theorem fieldBody_append_spaces {body : List Byte} (h : ∀ ch ∈ body, ch ≠ chSpace) (n : Nat) :
    fieldBody (body ++ List.replicate n chSpace) = body := by
  have hkeep : body.reverse.dropWhile (· == chSpace) = body.reverse := by
    cases hrev : body.reverse with
    | nil => rfl
    | cons ch rest =>
      have hmem : ch ∈ body := List.mem_reverse.mp (by simp [hrev])
      simp [h ch hmem]
  simp [fieldBody, hkeep]

theorem length_fieldBody_le (f : List Byte) : (fieldBody f).length ≤ f.length := by
  obtain ⟨n, hn⟩ := exists_fieldBody_append f
  conv_rhs => rw [hn]
  simp

/-- W3 and W4 of a body (R112). -/
theorem bodyWellFormed_iff {body : List Byte} :
    bodyWellFormed body = true ↔
      (∀ ch ∈ body, isDigitChar ch = true ∨ ch = chPoint) ∧ body.count chPoint ≤ 1 ∧
        ∃ ch ∈ body, isDigitChar ch = true := by
  simp [bodyWellFormed, and_assoc]

theorem ne_chSpace_of_digit_or_point {ch : Byte} (h : isDigitChar ch = true ∨ ch = chPoint) : ch ≠ chSpace := by
  rintro rfl
  rcases h with h | h <;> exact absurd h (by decide)

theorem bodyWellFormed_ne_chSpace {body : List Byte} (h : bodyWellFormed body = true) : ∀ ch ∈ body, ch ≠ chSpace := by
  obtain ⟨hchars, -, -⟩ := bodyWellFormed_iff.mp h
  exact fun ch hch => ne_chSpace_of_digit_or_point (hchars ch hch)

/-- R112: a field has a well-formed body exactly where it is such a body followed by spaces. -/
theorem bodyWellFormed_fieldBody_iff {f : List Byte} :
    bodyWellFormed (fieldBody f) = true ↔
      ∃ (body : List Byte) (n : Nat), f = body ++ List.replicate n chSpace ∧ bodyWellFormed body = true := by
  constructor
  · intro h
    obtain ⟨n, hn⟩ := exists_fieldBody_append f
    exact ⟨fieldBody f, n, hn, h⟩
  · rintro ⟨body, n, rfl, h⟩
    rwa [fieldBody_append_spaces (bodyWellFormed_ne_chSpace h)]

/-- R116: on both sides of a well-formed body's point stand digits alone. -/
theorem bodyWellFormed_digits {body : List Byte} (h : bodyWellFormed body = true) :
    (∀ ch ∈ body.takeWhile (· != chPoint), isDigitChar ch = true) ∧
      ∀ ch ∈ (body.dropWhile (· != chPoint)).drop 1, isDigitChar ch = true := by
  obtain ⟨hchars, hcount, -⟩ := bodyWellFormed_iff.mp h
  have hdigit : ∀ ch ∈ body, ch ≠ chPoint → isDigitChar ch = true := fun ch hch hne => (hchars ch hch).resolve_right hne
  constructor
  · intro ch hch
    exact hdigit ch (List.takeWhile_subset _ hch) (by simpa using List.mem_takeWhile_imp hch)
  · intro ch hch
    have hmem : ch ∈ body := (List.dropWhile_sublist _).subset (List.mem_of_mem_drop hch)
    refine hdigit ch hmem ?_
    rintro rfl
    have hsecond : 2 ≤ (body.dropWhile (· != chPoint)).count chPoint := by
      cases hdrop : body.dropWhile (· != chPoint) with
      | nil => simp [hdrop] at hch
      | cons first rest =>
        have hfirst : first = chPoint := by
          have hhead := List.head_dropWhile_not (· != chPoint) (l := body) (by simp [hdrop])
          simpa [hdrop] using hhead
        have hrest : 1 ≤ rest.count chPoint := List.one_le_count_iff.mpr (by simpa [hdrop] using hch)
        simp only [hfirst, List.count_cons_self]
        omega
    have hle := (List.dropWhile_sublist (l := body) (· != chPoint)).count_le chPoint
    omega

/-- The digits before the point are the text's integer (R116). -/
theorem digitsNat_integerDigits {body : List Byte} (h : bodyWellFormed body = true) :
    digitsNat (integerDigits body) = textNat (body.takeWhile (· != 0x2E#8)) :=
  (textNat_eq_digitsNat (bodyWellFormed_digits h).left).symm

/-- The digits after the point are the text's fraction (R116). -/
theorem digitsNat_fractionDigits {body : List Byte} (h : bodyWellFormed body = true) :
    digitsNat (fractionDigits body) = textNat ((body.dropWhile (· != 0x2E#8)).drop 1) :=
  (textNat_eq_digitsNat (bodyWellFormed_digits h).right).symm

theorem length_fractionDigits (body : List Byte) :
    (fractionDigits body).length = ((body.dropWhile (· != 0x2E#8)).drop 1).length := List.length_map _

/-! ### The fields of a record -/

/-- R115: the sign is that of `c[0]`. -/
theorem minusSign_iff {c : List Byte} : (charAt c 0 == chMinus) = true ↔ c.getD 0 0 = 0x2D#8 := beq_iff_eq

theorem hasExponent_iff {c : List Byte} : hasExponent c = true ↔ c.getD 12 0 = 0x45#8 := beq_iff_eq

theorem signWellFormed_iff {c : List Byte} :
    signWellFormed c = true ↔ c.getD 0 0 = 0x20#8 ∨ c.getD 0 0 = 0x2D#8 := by
  rw [signWellFormed, Bool.or_eq_true]
  exact or_congr beq_iff_eq beq_iff_eq

theorem exponentWellFormed_iff {c : List Byte} :
    exponentWellFormed c = true ↔
      (hasExponent c = true → (charAt c 13 = chPlus ∨ charAt c 13 = chMinus) ∧ isDigitChar (charAt c 14) = true ∧
        isDigitChar (charAt c 15) = true) := by
  cases h : hasExponent c <;> simp [exponentWellFormed, h, and_assoc]

theorem mantissaField_eq (c : List Byte) :
    mantissaField c = if c.getD 12 0 = 0x45#8 then (c.drop 1).take 11 else (c.drop 1).take 15 :=
  if_congr hasExponent_iff rfl rfl

/-- `body` of a record (R112, R119). -/
def recordBody (c : List Byte) : List Byte := fieldBody (mantissaField c)

theorem wellFormedRecord_iff {c : List Byte} :
    wellFormedRecord c = true ↔
      signWellFormed c = true ∧ exponentWellFormed c = true ∧ bodyWellFormed (recordBody c) = true := by
  simp [wellFormedRecord, recordBody, and_assoc]

/-- R111: a mantissa field has 11 characters with an exponent field behind it, and 15 without. -/
theorem length_mantissaField_le (c : List Byte) :
    (mantissaField c).length ≤ if hasExponent c = true then 11 else 15 := by
  rw [mantissaField]
  split <;> exact List.length_take_le _ _

theorem length_recordBody_le (c : List Byte) : (recordBody c).length ≤ if hasExponent c = true then 11 else 15 :=
  (length_fieldBody_le _).trans (length_mantissaField_le c)

/-- R112: the characters before a well-formed record's first space are its body. -/
theorem textBody_eq_recordBody {c : List Byte} (h : bodyWellFormed (recordBody c) = true) :
    textBody c = recordBody c := by
  obtain ⟨n, hn⟩ : ∃ n, mantissaField c = recordBody c ++ List.replicate n chSpace := exists_fieldBody_append _
  have hfield : textBody c = (mantissaField c).takeWhile (· != chSpace) := by
    rw [mantissaField_eq, textBody]
    split <;> rfl
  have hbody : ∀ ch ∈ recordBody c, (ch != chSpace) = true :=
    fun ch hch => by simpa using bodyWellFormed_ne_chSpace h ch hch
  rw [hfield, hn]
  simp [List.takeWhile_append_of_pos hbody]

/-- R114: the initial exponent of a well-formed record is the bias and the exponent its text names. -/
theorem initialExp_eq {c : List Byte} (h : exponentWellFormed c = true) : initialExp c = 128 + textExponent c := by
  by_cases hexp : hasExponent c = true
  · obtain ⟨-, htens, hunits⟩ := exponentWellFormed_iff.mp h hexp
    rw [initialExp, if_pos hexp, textExponent, if_pos (hasExponent_iff.mp hexp), charDigit_val htens, charDigit_val hunits]
    change (if charAt c 13 == chMinus then _ else _) = 128 + if charAt c 13 = chMinus then _ else _
    by_cases hminus : charAt c 13 = chMinus
    · rw [if_pos (beq_iff_eq.mpr hminus), if_pos hminus]
      rfl
    · rw [if_neg (by simpa using hminus), if_neg hminus]
      rfl
  · rw [initialExp, if_neg hexp, textExponent, if_neg (by rwa [← hasExponent_iff])]
    rfl

/-- R114: two digits move the exponent by at most 99, and nothing moves it without an exponent field. -/
theorem initialExp_bounds (c : List Byte) :
    29 ≤ initialExp c ∧ initialExp c ≤ 227 ∧ (hasExponent c = false → initialExp c = 128) := by
  have htens := (charDigit (charAt c 14)).isLt
  have hunits := (charDigit (charAt c 15)).isLt
  simp only [initialExp, Config.bias]
  split
  next hexp => split <;> exact ⟨by omega, by omega, by simp [hexp]⟩
  next => simp

end Sys2Proof.Machine
end

section
/-! SUPPORT. The significant digits of a record and its exponent, as arithmetic, and the statements about PARSE (41_parse.md
R110 to R118). -/

namespace Sys2Proof.Machine

/-! ### Significant digits -/

/-- R116: the significant digits are all the digits from the first 1..9 on. -/
theorem significant_eq_dropWhile (i fr : List Digit) : (significant i fr).1 = (i ++ fr).dropWhile (· == 0) := by
  rw [significant_digits, List.dropWhile_append]
  cases i.dropWhile (· == 0) <;> simp

/-- Leading zeros do not count. -/
theorem digitsNat_dropWhile_zero (ds : List Digit) : digitsNat (ds.dropWhile (· == 0)) = digitsNat ds := by
  induction ds with
  | nil => rfl
  | cons d ds ih =>
    by_cases hd : d = 0
    · simp [hd, ih, digitsNat_cons]
    · simp [hd]

/-- R116: where a significant digit is left, the adjustment puts the point behind the first of them. -/
theorem significant_adjustment {i fr : List Digit} (h : (significant i fr).1 ≠ []) :
    (significant i fr).2 = ((significant i fr).1.length : Int) - fr.length - 1 := by
  by_cases hi : i.dropWhile (· == 0) ≠ []
  · simp only [significant, if_pos hi, List.length_append]
    omega
  · simp only [significant, if_neg hi] at h ⊢
    have hz : (fr.takeWhile (· == 0)).length < fr.length := by
      by_contra hge
      exact h (List.drop_eq_nil_of_le (not_lt.mp hge))
    rw [List.length_drop]
    omega

/-- R117: a stored mantissa is the first 14 digits of a list, with zeros behind a shorter one. -/
theorem toList_mantissaOf (ds : List Digit) : (mantissaOf ds).toList = (ds ++ List.replicate 14 0).take 14 := by
  apply List.ext_getElem
  · simp
  · intro k hk _
    have hk14 : k < 14 := by simpa using hk
    rw [Vector.getElem_toList, mantissaOf_getElem _ _ hk14, List.getElem_take, List.getD_eq_getElem?_getD,
      List.getElem_append]
    split
    next hlt => simp [hlt]
    next hge => rw [List.getElem?_eq_none (not_lt.mp hge), List.getElem_replicate]; rfl

theorem digitsNat_take (ds : List Digit) (n : Nat) : digitsNat (ds.take n) = digitsNat ds / 10 ^ (ds.length - n) := by
  have hlt := digitsNat_lt (ds.drop n)
  rw [List.length_drop] at hlt
  conv_rhs => rw [← List.take_append_drop n ds, digitsNat_append, List.take_append_drop, List.length_drop]
  rw [mul_comm, Nat.mul_add_div (by positivity), Nat.div_eq_of_lt hlt, add_zero]

/-- R117: the significand of a stored mantissa is the number of its digits, cut at the 14th. -/
theorem digitsNat_mantissaOf (ds : List Digit) :
    digitsNat (mantissaOf ds).toList = digitsNat ds * 10 ^ 14 / 10 ^ ds.length := by
  rw [toList_mantissaOf, digitsNat_take, digitsNat_append, digitsNat_replicate_zero]
  simp

/-! ### The digits and the exponent of a record -/

/-- `S` of a record (R116). -/
def recordDigits (c : List Byte) : List Digit :=
  (significant (integerDigits (recordBody c)) (fractionDigits (recordBody c))).1

/-- The exact exponent of a record with a significant digit: `E0` and the adjustment, by the places of `S` before the point
(R116, R118). -/
def recordExponent (c : List Byte) : Int :=
  initialExp c + ((recordDigits c).length - (fractionDigits (recordBody c)).length - 1)

/-- R117, R118: PARSE's Register by the record's significant digits and exponent. -/
theorem parseValue_eq (c : List Byte) :
    parseValue c =
      if recordDigits c = [] then Register.trueZero
      else ⟨charAt c 0 == chMinus, mantissaOf (recordDigits c), storeExp (recordExponent c)⟩ := by
  have hvalue : parseValue c =
      if recordDigits c = [] then Register.trueZero
      else ⟨charAt c 0 == chMinus, mantissaOf (recordDigits c),
        storeExp (initialExp c + (significant (integerDigits (recordBody c)) (fractionDigits (recordBody c))).2)⟩ := rfl
  rw [hvalue]
  split
  next => rfl
  next h => rw [significant_adjustment h, ← recordDigits, ← recordExponent]

/-- R116: a body's digits are its characters without the point, which stands before every digit of the fraction. -/
theorem length_body_digits (body : List Byte) :
    (integerDigits body).length + (fractionDigits body).length ≤ body.length ∧
      (fractionDigits body).length ≤ body.length - 1 := by
  have hsplit := congrArg List.length (List.takeWhile_append_dropWhile (p := (· != chPoint)) (l := body))
  simp only [List.length_append] at hsplit
  simp only [integerDigits, fractionDigits, List.length_map, List.length_drop]
  omega

theorem recordDigits_eq (c : List Byte) :
    recordDigits c = (integerDigits (recordBody c) ++ fractionDigits (recordBody c)).dropWhile (· == 0) :=
  significant_eq_dropWhile _ _

/-- R118: the exponent never leaves 19..237, nor 114..142 without an exponent field. -/
theorem recordExponent_bounds {c : List Byte} (h : recordDigits c ≠ []) :
    19 ≤ recordExponent c ∧ recordExponent c ≤ 237 ∧
      (hasExponent c = false → 114 ≤ recordExponent c ∧ recordExponent c ≤ 142) := by
  obtain ⟨hsum, hfraction⟩ := length_body_digits (recordBody c)
  obtain ⟨hleast, hgreatest, hwithout⟩ := initialExp_bounds c
  have hpos := List.length_pos_iff.mpr h
  have hdigits : (recordDigits c).length ≤ (integerDigits (recordBody c)).length +
      (fractionDigits (recordBody c)).length := by
    rw [recordDigits_eq, ← List.length_append]
    exact List.length_dropWhile_le _ _
  have hbody := length_recordBody_le c
  unfold recordExponent
  cases hexp : hasExponent c
  · have hE0 := hwithout hexp
    rw [hexp, if_neg Bool.false_ne_true] at hbody
    exact ⟨by omega, by omega, fun _ => ⟨by omega, by omega⟩⟩
  · rw [hexp, if_pos rfl] at hbody
    exact ⟨by omega, by omega, nofun⟩

/-- The exponent as it is stored: it never wraps (R118). -/
theorem storeExp_recordExponent {c : List Byte} (h : recordDigits c ≠ []) :
    ((storeExp (recordExponent c)).toNat : Int) = recordExponent c := by
  obtain ⟨hleast, hgreatest, -⟩ := recordExponent_bounds h
  rw [storeExp_toNat]
  omega

/-- R116: the significant digits stand for a number with all its places. -/
theorem digitsNat_recordDigits_pos {c : List Byte} (h : recordDigits c ≠ []) : 0 < digitsNat (recordDigits c) := by
  have hlead : (recordDigits c).headD 0 ≠ 0 := significant_lead h
  have hlen : (recordDigits c).length = (recordDigits c).length - 1 + 1 := by
    have := List.length_pos_iff.mpr h
    omega
  exact lt_of_lt_of_le (by positivity) ((headD_ne_zero_iff hlen).mp hlead)

/-- R118: the leading digit of PARSE's mantissa, where a significant digit is left. -/
theorem mantissaOf_recordDigits_lead {c : List Byte} (h : recordDigits c ≠ []) : (mantissaOf (recordDigits c))[0] ≠ 0 :=
  (store_zero (recordDigits c)).trans_ne (significant_lead h)

/-- R111 to R116: the exact value of a well-formed record's text, by its significant digits and its exponent. -/
theorem recordValue_eq {c : List Byte} (h : wellFormedRecord c = true) :
    recordValue c = (if c.getD 0 0 = 0x2D#8 then -1 else 1) *
      ((digitsNat (recordDigits c) : ℚ) * 10 ^ (recordExponent c - 127 - (recordDigits c).length)) := by
  obtain ⟨-, hexp, hbody⟩ := wellFormedRecord_iff.mp h
  have hplaces : recordExponent c - 127 - (recordDigits c).length =
      textExponent c - (fractionDigits (recordBody c)).length := by
    rw [recordExponent, initialExp_eq hexp]
    omega
  have hnat := digitsNat_dropWhile_zero (integerDigits (recordBody c) ++ fractionDigits (recordBody c))
  rw [← recordDigits_eq, digitsNat_append] at hnat
  rw [hplaces, hnat, zpow_sub₀ (by norm_num), zpow_natCast, recordValue, textBody_eq_recordBody hbody,
    ← digitsNat_integerDigits hbody, ← digitsNat_fractionDigits hbody, ← length_fractionDigits]
  push_cast
  field_simp

/-- R117: a mantissa of significant digits `ds` is the number `0.d1 d2 ...` cut at its 14th digit, with an exponent to scale
it. -/
theorem mantissaOf_truncates (ds : List Digit) (e : Int) :
    (digitsNat (mantissaOf ds).toList : ℚ) * 10 ^ (e - 141) ≤ digitsNat ds * 10 ^ (e - 127 - ds.length) ∧
      (digitsNat ds : ℚ) * 10 ^ (e - 127 - ds.length) < (digitsNat (mantissaOf ds).toList + 1) * 10 ^ (e - 141) := by
  have hscale : (digitsNat ds : ℚ) * 10 ^ (e - 127 - ds.length) =
      (digitsNat ds * 10 ^ 14 : ℕ) / (10 ^ ds.length : ℕ) * 10 ^ (e - 141) := by
    rw [show e - 127 - (ds.length : Int) = 14 + (e - 141) - ds.length by ring, zpow_sub₀ (by norm_num),
      zpow_add₀ (by norm_num), zpow_natCast]
    push_cast
    ring
  have hplaces : (0 : ℚ) < (10 ^ ds.length : ℕ) := by positivity
  have hunit : (0 : ℚ) < 10 ^ (e - 141) := by positivity
  rw [hscale, digitsNat_mantissaOf]
  constructor
  · exact mul_le_mul_of_nonneg_right Nat.cast_div_le hunit.le
  · refine mul_lt_mul_of_pos_right ?_ hunit
    rw [div_lt_iff₀ hplaces]
    exact_mod_cast (Nat.lt_mul_div_succ _ (by positivity)).trans_eq (mul_comm _ _)

/-- R117, R118: PARSE's Register of a well-formed record with a significant digit is the exact value, truncated. -/
theorem parseValue_truncates {c : List Byte} (h : wellFormedRecord c = true) (hS : recordDigits c ≠ []) :
    TruncationOf (parseValue c) false (recordValue c) := by
  obtain ⟨hleast, hgreatest, -⟩ := recordExponent_bounds hS
  obtain ⟨hbelow, habove⟩ := mantissaOf_truncates (recordDigits c) (recordExponent c)
  have hpos : (0 : ℚ) < digitsNat (recordDigits c) * 10 ^ (recordExponent c - 127 - (recordDigits c).length) :=
    mul_pos (mod_cast digitsNat_recordDigits_pos hS) (by positivity)
  have habs : |recordValue c| = digitsNat (recordDigits c) * 10 ^ (recordExponent c - 127 - (recordDigits c).length) := by
    rw [recordValue_eq h, abs_mul, abs_of_pos hpos]
    split <;> simp
  have hsign : (charAt c 0 == chMinus) = true ↔ recordValue c < 0 := by
    rw [recordValue_eq h, minusSign_iff]
    split
    next hminus => exact iff_of_true hminus (by linarith)
    next hminus => exact iff_of_false hminus (by linarith)
  rw [parseValue_eq, if_neg hS]
  refine ⟨recordExponent c, storeExp_toNat _, ?_, mantissaOf_recordDigits_lead hS, ?_, ?_, hsign⟩
  · exact iff_of_false Bool.false_ne_true (by omega)
  · rw [habs]
    exact hbelow
  · rw [habs]
    exact habove

/-! ### The command -/

/-- R110: PARSE on the 16 bytes of IBUF, in the fields of the next state. -/
theorem exec_parse (rd : RegIndex) (s : State) :
    exec (.parse rd) s =
      if wellFormedRecord (operandsR s) = true then
        .next { s with dr := s.dr.set rd.val (parseValue (operandsR s)) rd.isLt, status := 0x00#8, running := none }
      else .next { s with status := 0x04#8, running := none } := by
  rcases execParse_cases rd s with ⟨hwf, heq⟩ | ⟨hwf, heq⟩
  · rw [if_pos hwf]
    exact heq
  · rw [if_neg (by simp [hwf])]
    exact heq

theorem exec_add (rd rs1 rs2 : RegIndex) (s : State) :
    exec (.add rd rs1 rs2) s = .next (s.finish rd (addsub (s.readReg rs1) (s.readReg rs2) false)) := rfl

theorem exec_mul (rd rs1 rs2 : RegIndex) (s : State) :
    exec (.mul rd rs1 rs2) s = .next (s.finish rd (mul (s.readReg rs1) (s.readReg rs2))) := rfl

theorem exec_div (rd rs1 rs2 : RegIndex) (s : State) :
    exec (.div rd rs1 rs2) s = .next (s.finish rd (divide (s.readReg rs1) (s.readReg rs2))) := rfl

/-- R215: the end of a command with a result, in the fields of the next state. -/
theorem State.finish_value (s : State) (rd : RegIndex) (r : Register) (dz ov : Bool) :
    s.finish rd (.value r dz ov) =
      { s with dr := s.dr.set rd.val r rd.isLt, status := statusOf dz ov, running := none } := rfl

/-! ### The statements -/

/-- Settles O28: the exact value is 0 where no significant digit is left, and is truncated elsewhere. -/
theorem parseTruncatesExactText : Obligations.ParseTruncatesExactText := by
  intro c _ h
  by_cases hS : recordDigits c = []
  · have hzero : recordValue c = 0 := by simp [recordValue_eq h, hS]
    rw [if_pos hzero, parseValue_eq, if_pos hS]
  · have hne : recordValue c ≠ 0 := by
      have hdigits := (digitsNat_recordDigits_pos hS).ne'
      rw [recordValue_eq h]
      split <;> positivity
    rw [if_neg hne]
    exact parseValue_truncates h hS

/-- Settles O27, by the bounds of the exact exponent, which does not wrap. -/
theorem parsedRegisterClass : Obligations.ParsedRegisterClass := by
  intro c _ _
  rw [parseValue_eq]
  split
  next => exact .inl rfl
  next hS =>
    obtain ⟨hleast, hgreatest, hwithout⟩ := recordExponent_bounds hS
    have hstored := storeExp_recordExponent hS
    refine .inr ⟨mantissaOf_recordDigits_lead hS, by simp only; omega, by simp only; omega, fun hE => ?_⟩
    obtain ⟨hleast', hgreatest'⟩ := hwithout (Bool.eq_false_iff.mpr (mt hasExponent_iff.mp hE))
    simp only
    omega

/-- Settles O25, by the equation of PARSE on the 16 bytes. -/
theorem parseWritesRecordOrSignalsPE : Obligations.ParseWritesRecordOrSignalsPE := exec_parse

/-- Settles O26: W1 and W2 field by field, W3 and W4 by the body of the mantissa field. -/
theorem wellFormedRecordsAreThoseOfTheRule : Obligations.WellFormedRecordsAreThoseOfTheRule := by
  refine ⟨fun c _ => ?_, fun rd s hwf => ?_⟩
  · rw [wellFormedRecord_iff, signWellFormed_iff, exponentWellFormed_iff, recordBody,
      bodyWellFormed_fieldBody_iff, hasExponent_iff, ← mantissaField_eq]
    simp only [bodyWellFormed_iff, isDigitChar_iff]
    rfl
  · rw [exec_parse, if_neg]
    exact Bool.eq_false_iff.mp hwf

/-- Settles O53: the record and the engines on the four examples, and the shared ending of a command. -/
theorem sourceWorkedExamples : Obligations.SourceWorkedExamples := by
  intro rd rs1 rs2 s
  refine ⟨fun hc => ?_, fun hx => ?_, fun hx => ?_, fun hx hy => ?_⟩
  · have hwf : wellFormedRecord (0x20#8 :: 0x31#8 :: List.replicate 14 0x20#8) = true := by decide +kernel
    have hvalue : parseValue (0x20#8 :: 0x31#8 :: List.replicate 14 0x20#8) = ⟨false, mantissaOf [1], 128#8⟩ := by
      decide +kernel
    rw [exec_parse, show operandsR s = _ from hc, if_pos hwf, hvalue]
  · have hsum : addsub ⟨false, mantissaOf [1], 128#8⟩ ⟨false, mantissaOf [1], 128#8⟩ false =
        .value ⟨false, mantissaOf [2], 128#8⟩ false false := by decide +kernel
    rw [exec_add, hx, hsum, State.finish_value]
    rfl
  · have hproduct : mul ⟨false, mantissaOf [9], 128#8⟩ ⟨false, mantissaOf [9], 128#8⟩ =
        .value ⟨false, mantissaOf [8, 1], 129#8⟩ false false := by decide +kernel
    rw [exec_mul, hx, hproduct, State.finish_value]
    rfl
  · have hquotient : divide ⟨false, mantissaOf [1], 128#8⟩ ⟨false, mantissaOf [], 128#8⟩ =
        .value ⟨false, mantissaOf [], 0#8⟩ true false := by decide +kernel
    rw [exec_div, hx, hy, hquotient, State.finish_value]
    rfl

end Sys2Proof.Machine
end

section
/-! SUPPORT. The add/subtract engine branch by branch, a subtraction as the addition of the second operand with its sign
flipped, the engine's symmetry, and the statements that need no values (42_addsub.md R140 to R158). -/

namespace Sys2Proof.Machine

/-! ### The branches -/

/-- The second operand as an addition takes it: its sign flipped for a subtraction (R144, R147, R157). -/
def Register.operand (y : Register) (sub : Bool) : Register := { y with sign := y.sign ^^ sub }

@[simp] theorem Register.operand_false (y : Register) : y.operand false = y := by simp [Register.operand]

@[simp] theorem Register.operand_true (y : Register) : y.operand true = y.negate := by
  simp [Register.operand, Register.negate]

/-- R86: a register with a leading digit 1..9 is not zero. -/
theorem regIsZero_of_lead {r : Register} (h : r.mant[0] ≠ 0) : ¬ regIsZero r = true :=
  fun hz => h (regIsZero_iff.mp hz 0 (by omega))

/-- R147: the exponents are near enough to align, or one is the larger by more than the limit. -/
theorem expDiff_cases (ex ey : BitVec 8) :
    expDiff ex ey ≤ 14 ∨ ex.toNat + 14 < ey.toNat ∨ ey.toNat + 14 < ex.toNat := by
  simp only [expDiff, expInt]
  omega

/-- R143. -/
theorem addsub_zero_right {y : Register} (hy : regIsZero y = true) (x : Register) (sub : Bool) :
    addsub x y sub = returned (if regIsZero x = true then Register.trueZero else x) := by
  rw [addsub, if_pos hy, apply_ite returned]

/-- R144. -/
theorem addsub_zero_left {x y : Register} (hx : regIsZero x = true) (hy : ¬ regIsZero y = true) (sub : Bool) :
    addsub x y sub = returned (y.operand sub) := by
  rw [addsub, if_neg hy, if_pos hx, Register.operand]

/-- R147, with the second operand's exponent the larger. -/
theorem addsub_collapse_right {x y : Register} (hx : ¬ regIsZero x = true) (hy : ¬ regIsZero y = true)
    (h : x.exp.toNat + 14 < y.exp.toNat) (sub : Bool) : addsub x y sub = returned (y.operand sub) := by
  have hdiff : expDiff x.exp y.exp > Config.alignLimit := by simp only [expDiff, expInt, Config.alignLimit]; omega
  have hlt : expInt x.exp < expInt y.exp := by simp only [expInt]; omega
  rw [addsub, if_neg hy, if_neg hx, if_pos hdiff, if_pos hlt, Register.operand]

/-- R147, with the first operand's exponent the larger. -/
theorem addsub_collapse_left {x y : Register} (hx : ¬ regIsZero x = true) (hy : ¬ regIsZero y = true)
    (h : y.exp.toNat + 14 < x.exp.toNat) (sub : Bool) : addsub x y sub = returned x := by
  have hdiff : expDiff x.exp y.exp > Config.alignLimit := by simp only [expDiff, expInt, Config.alignLimit]; omega
  have hge : ¬ expInt x.exp < expInt y.exp := by simp only [expInt]; omega
  rw [addsub, if_neg hy, if_neg hx, if_pos hdiff, if_neg hge]

/-- R148 to R151: two aligned nonzero operands. -/
theorem addsub_aligned {x y : Register} (hx : ¬ regIsZero x = true) (hy : ¬ regIsZero y = true)
    (h : expDiff x.exp y.exp ≤ 14) (sub : Bool) :
    addsub x y sub =
      if effectiveAdd x.sign y.sign sub = true then
        effectiveAddition x.sign (align x y).1 (align x y).2.1 (align x y).2.2
      else effectiveSubtraction x.sign (align x y).1 (align x y).2.1 (align x y).2.2 := by
  rw [addsub, if_neg hy, if_neg hx, if_neg (not_lt.mpr h)]

/-- R148: the digits are added where the operands' signs, as an addition takes them, are equal. -/
theorem effectiveAdd_iff (sx sy sub : Bool) : effectiveAdd sx sy sub = true ↔ (sy ^^ sub) = sx := by
  revert sx sy sub
  decide

theorem effectiveAdd_eq (sx sy sub : Bool) : effectiveAdd sx sy sub = effectiveAdd sx (sy ^^ sub) false := by
  rw [Bool.eq_iff_iff, effectiveAdd_iff, effectiveAdd_iff, Bool.xor_false]

/-- R157: the engine subtracts by adding the operand with its sign flipped. -/
theorem addsub_eq_add (x y : Register) (sub : Bool) : addsub x y sub = addsub x (y.operand sub) false := by
  by_cases hy : regIsZero y = true
  · rw [addsub_zero_right hy, addsub_zero_right (y := y.operand sub) hy]
  by_cases hx : regIsZero x = true
  · rw [addsub_zero_left hx hy, addsub_zero_left (y := y.operand sub) hx hy, Register.operand_false]
  rcases expDiff_cases x.exp y.exp with hdiff | hlt | hgt
  · rw [addsub_aligned hx hy hdiff, addsub_aligned (y := y.operand sub) hx hy hdiff, effectiveAdd_eq]
    rfl
  · rw [addsub_collapse_right hx hy hlt, addsub_collapse_right (y := y.operand sub) hx hy hlt, Register.operand_false]
  · rw [addsub_collapse_left hx hy hgt, addsub_collapse_left (y := y.operand sub) hx hy hgt]

/-! ### Completion -/

/-- R148 to R152: an effective addition completes. -/
theorem effectiveAddition_value (sx : Bool) (a b : Buf) (e : Int) :
    ∃ r ov, effectiveAddition sx a b e = .value r false ov := by
  rw [effectiveAddition]
  split <;> exact ⟨_, _, rfl⟩

/-- R150 to R152: an effective subtraction completes: its borrow never escapes. -/
theorem effectiveSubtraction_value (sx : Bool) {a b : Buf} (e : Int) (ha : a.length = 16) (hb : b.length = 16) :
    ∃ r ov, effectiveSubtraction sx a b e = .value r false ov := by
  obtain ⟨r, -, -, heq⟩ := effectiveSubtraction_eq sx e ha hb
  rw [heq]
  split <;> exact ⟨_, _, rfl⟩

theorem length_align (x y : Register) : (align x y).1.length = 16 ∧ (align x y).2.1.length = 16 := by
  rw [align]
  split
  · exact ⟨length_shiftRight (length_load x) _, length_load y⟩
  · exact ⟨length_load x, length_shiftRight (length_load y) _⟩

/-- R158: the engine answers a Register, with DZ clear and never INV, on all registers. -/
theorem addsub_value (x y : Register) (sub : Bool) : ∃ r ov, addsub x y sub = .value r false ov := by
  by_cases hy : regIsZero y = true
  · exact ⟨_, _, addsub_zero_right hy x sub⟩
  by_cases hx : regIsZero x = true
  · exact ⟨_, _, addsub_zero_left hx hy sub⟩
  rcases expDiff_cases x.exp y.exp with hdiff | hlt | hgt
  · obtain ⟨ha, hb⟩ := length_align x y
    rw [addsub_aligned hx hy hdiff]
    split
    · exact effectiveAddition_value _ _ _ _
    · exact effectiveSubtraction_value _ _ ha hb
  · exact ⟨_, _, addsub_collapse_right hx hy hlt sub⟩
  · exact ⟨_, _, addsub_collapse_left hx hy hgt sub⟩

theorem exec_sub (rd rs1 rs2 : RegIndex) (s : State) :
    exec (.sub rd rs1 rs2) s = .next (s.finish rd (addsub (s.readReg rs1) (s.readReg rs2) true)) := rfl

/-- R140, R141: STATUS of a command whose only flag is OV. -/
theorem statusOf_ov (ov : Bool) : statusOf false ov = if ov then 0x02#8 else 0x00#8 := by cases ov <;> rfl

/-- R140, R141, R158: the end of ADD and SUB, in the fields of the next state. -/
theorem State.finish_addsub (s : State) (rd : RegIndex) (x y : Register) (sub : Bool) :
    ∃ r ov, addsub x y sub = .value r false ov ∧
      s.finish rd (addsub x y sub) =
        { s with dr := s.dr.set rd.val r rd.isLt, status := if ov then 0x02#8 else 0x00#8, running := none } := by
  obtain ⟨r, ov, h⟩ := addsub_value x y sub
  exact ⟨r, ov, h, by rw [h, State.finish_value, statusOf_ov]⟩

/-! ### Commutativity -/

/-- Buffers of one length that stand for one number are equal. -/
theorem digitsNat_injective {a b : Buf} (hlen : a.length = b.length) (h : digitsNat a = digitsNat b) : a = b := by
  induction a generalizing b with
  | nil => exact (List.length_eq_zero_iff.mp hlen.symm).symm
  | cons d ds ih =>
    cases b with
    | nil => simp at hlen
    | cons c cs =>
      have hlen' : ds.length = cs.length := by simpa using hlen
      have hds := digitsNat_lt ds
      have hcs := digitsNat_lt cs
      rw [digitsNat_cons, digitsNat_cons, ← hlen'] at h
      rw [← hlen'] at hcs
      have hd : d.val = c.val := by
        have hquot := congrArg (· / 10 ^ ds.length) h
        simpa [Nat.add_div_of_dvd_right, Nat.div_eq_of_lt, hds, hcs] using hquot
      rw [hd] at h
      rw [Fin.ext hd, ih hlen' (by omega)]

theorem digitAddCarry_comm (d1 d2 : Digit) (cin : Bool) : digitAddCarry d1 d2 cin = digitAddCarry d2 d1 cin := by
  simp only [digitAddCarry, Nat.add_comm d1.val]

theorem addBuf_comm (a b : Buf) : addBuf a b = addBuf b a := by
  induction a generalizing b with
  | nil => cases b <;> rfl
  | cons d ds ih =>
    cases b with
    | nil => rfl
    | cons c cs => rw [addBuf, addBuf, ih, digitAddCarry_comm]

theorem effectiveAddition_comm (sx : Bool) (a b : Buf) (e : Int) :
    effectiveAddition sx a b e = effectiveAddition sx b a e := by
  rw [effectiveAddition, effectiveAddition, addBuf_comm]

/-- R150, R151: exchanging the buffers and the sign leaves an effective subtraction as it is; equal buffers, which compare
>= both ways, end in true zero. -/
theorem effectiveSubtraction_comm (sx : Bool) {a b : Buf} (e : Int) (ha : a.length = 16) (hb : b.length = 16) :
    effectiveSubtraction sx a b e = effectiveSubtraction (!sx) b a e := by
  obtain ⟨r, hr, hval, heq⟩ := effectiveSubtraction_eq sx e ha hb
  obtain ⟨r', hr', hval', heq'⟩ := effectiveSubtraction_eq (!sx) e hb ha
  obtain rfl : r = r' := digitsNat_injective (hr.trans hr'.symm) (by omega)
  rw [heq, heq']
  split
  next => rfl
  next hz =>
    rw [isZero_iff_digitsNat] at hz
    have hab := compareGe_iff (ha.trans hb.symm)
    have hba := compareGe_iff (hb.trans ha.symm)
    have hswap : compareGe b a = !compareGe a b := by
      rw [Bool.eq_iff_iff, Bool.not_eq_true', ← Bool.not_eq_true, hab, hba]
      omega
    rw [hswap]
    simp

theorem expDiff_comm (ex ey : BitVec 8) : expDiff ex ey = expDiff ey ex := by
  rw [expDiff, expDiff, ← Int.natAbs_neg, neg_sub]

/-- R146: exchanging the operands exchanges the aligned buffers. -/
theorem align_comm (x y : Register) : align y x = ((align x y).2.1, (align x y).1, (align x y).2.2) := by
  rw [align, align, expDiff_comm y.exp x.exp]
  rcases lt_trichotomy (expInt x.exp) (expInt y.exp) with hlt | heq | hgt
  · rw [if_neg hlt.asymm, if_pos hlt]
  · have hdiff : expDiff x.exp y.exp = 0 := by rw [expDiff, heq, sub_self, Int.natAbs_zero]
    rw [if_neg (by omega), if_neg (by omega), hdiff, heq, shiftRight, shiftRight]
  · rw [if_pos hgt, if_neg hgt.asymm]

/-- R157: the engine's addition commutes, register and flags. -/
theorem addsub_comm (x y : Register) : addsub x y false = addsub y x false := by
  by_cases hx : regIsZero x = true <;> by_cases hy : regIsZero y = true
  · rw [addsub_zero_right hx, addsub_zero_right hy, if_pos hx, if_pos hy]
  · rw [addsub_zero_right hx, addsub_zero_left hx hy, if_neg hy, Register.operand_false]
  · rw [addsub_zero_right hy, addsub_zero_left hy hx, if_neg hx, Register.operand_false]
  rcases expDiff_cases x.exp y.exp with hdiff | hlt | hgt
  · obtain ⟨ha, hb⟩ := length_align x y
    rw [addsub_aligned hx hy hdiff, addsub_aligned hy hx (by rwa [expDiff_comm]), align_comm x y]
    simp only [effectiveAdd_iff, Bool.xor_false]
    by_cases hs : y.sign = x.sign
    · rw [if_pos hs, if_pos hs.symm, effectiveAddition_comm, hs]
    · rw [if_neg hs, if_neg (Ne.symm hs), effectiveSubtraction_comm _ _ ha hb, Bool.eq_not.mpr hs]
  · rw [addsub_collapse_right hx hy hlt, addsub_collapse_left hy hx hlt, Register.operand_false]
  · rw [addsub_collapse_left hx hy hgt, addsub_collapse_right hy hx hgt, Register.operand_false]

/-- R155, R157: a register subtracted from itself, zero or not, whatever its sign and exponent. -/
theorem addsub_self (x : Register) : addsub x x true = returned Register.trueZero := by
  by_cases hx : regIsZero x = true
  · rw [addsub_zero_right hx, if_pos hx]
  have hdiff : expDiff x.exp x.exp = 0 := by rw [expDiff, sub_self, Int.natAbs_zero]
  have halign : align x x = (load x, load x, expInt x.exp) := by
    rw [align, if_neg (lt_irrefl _), hdiff, shiftRight]
  obtain ⟨r, -, hval, heq⟩ := effectiveSubtraction_eq x.sign (expInt x.exp) (length_load x) (length_load x)
  have hzero : isZero r = true := by
    rw [isZero_iff_digitsNat, hval, sub_self, Int.natAbs_zero]
  rw [addsub_aligned hx hx (by omega), halign, if_neg (by simp [effectiveAdd_iff]), heq, if_pos hzero]

/-! ### The statements -/

/-- Settles O29, by the end of an addition. -/
theorem addCompletes : Obligations.AddCompletes := by
  intro rd rs1 rs2 s
  obtain ⟨r, ov, hvalue, hfinish⟩ := s.finish_addsub rd (s.readReg rs1) (s.readReg rs2) false
  exact ⟨r, ov, hvalue, by rw [exec_add, hfinish]⟩

/-- Settles O30, by the end of a subtraction. -/
theorem subCompletes : Obligations.SubCompletes := by
  intro rd rs1 rs2 s
  obtain ⟨r, ov, hvalue, hfinish⟩ := s.finish_addsub rd (s.readReg rs1) (s.readReg rs2) true
  exact ⟨r, ov, hvalue, by rw [exec_sub, hfinish]⟩

/-- Settles O31: the engine's first two branches. -/
theorem addSubZeroOperands : Obligations.AddSubZeroOperands := by
  intro x y sub
  simp only [← regIsZero_iff]
  exact ⟨fun hy => addsub_zero_right hy x sub, fun hx hy => addsub_zero_left hx hy sub⟩

/-- Settles O32: the two branches of the collapse. -/
theorem addSubCollapse : Obligations.AddSubCollapse := by
  intro x y sub
  simp only [← regIsZero_iff]
  exact fun hx hy => ⟨fun h => addsub_collapse_right hx hy h sub, fun h => addsub_collapse_left hx hy h sub⟩

/-- Settles O33, by the symmetry of the engine. -/
theorem addCommutes : Obligations.AddCommutes := by
  intro rd a b s
  rw [exec_add, exec_add, addsub_comm]

/-- Settles O34: the engine at a subtraction, by the operand it adds. -/
theorem subIsAddOfNegation : Obligations.SubIsAddOfNegation := by
  intro x y
  rw [addsub_eq_add, Register.operand_true]

/-- Settles O35, by the engine on equal operands. -/
theorem subOfItselfIsTrueZero : Obligations.SubOfItselfIsTrueZero := by
  intro rd r s
  rw [exec_sub, addsub_self, returned, State.finish_value]
  rfl

end Sys2Proof.Machine
end

section
/-! SUPPORT. Signs, units and stored buffers in the terms the accuracy laws use: what makes a register a truncated or a near
result (10_state.md R13, 40_primitives.md R85, R94, 42_addsub.md R156). -/

namespace Sys2Proof.Machine

/-! ### Signs -/

/-- The sign of a value as a factor (R13). -/
def signFactor (s : Bool) : ℚ := if s then -1 else 1

theorem Register.value_eq (r : Register) : r.value = signFactor r.sign * r.magnitude := rfl

theorem signFactor_not (s : Bool) : signFactor (!s) = -signFactor s := by cases s <;> simp [signFactor]

theorem signFactor_ne_zero (s : Bool) : signFactor s ≠ 0 := by cases s <;> simp [signFactor]

theorem abs_signFactor_mul (s : Bool) {m : ℚ} (h : 0 < m) : |signFactor s * m| = m := by
  cases s <;> simp [signFactor, abs_of_pos h]

theorem signFactor_mul_neg_iff (s : Bool) {m : ℚ} (h : 0 < m) : s = true ↔ signFactor s * m < 0 := by
  cases s <;> simp [signFactor, h, h.le]

/-! ### Units -/

/-- The weight of a buffer's last guard digit, index 15, at the exact exponent `e`. -/
def guardUnit (e : Int) : ℚ := 10 ^ (e - 143)

theorem guardUnit_pos (e : Int) : 0 < guardUnit e := by
  rw [guardUnit]
  positivity

theorem guardUnit_add (e : Int) (d : Nat) : guardUnit (e + d) = 10 ^ d * guardUnit e := by
  rw [guardUnit, guardUnit, ← zpow_natCast, ← zpow_add₀ (by norm_num)]
  ring_nf

theorem guardUnit_succ (e : Int) : guardUnit (e + 1) = 10 * guardUnit e := by simpa using guardUnit_add e 1

/-- One ulp is a hundred units of the last guard digit (R14, R85). -/
theorem ulp_eq_guardUnit (e : Int) : (10 : ℚ) ^ (e - 141) = 100 * guardUnit e := by
  rw [show e - 141 = e + (2 : Nat) - 143 by push_cast; ring, ← guardUnit, guardUnit_add]
  norm_num

/-- A number cut at its lower digits, in the weights of its last digit before and after the cut. -/
theorem cut_bounds (n : Nat) {k : Nat} (hk : 0 < k) {g : ℚ} (hg : 0 < g) :
    ((n / k : ℕ) : ℚ) * (k * g) ≤ n * g ∧ ((n : ℚ) + 1) * g ≤ ((n / k : ℕ) + 1) * (k * g) := by
  have hlow : ((n / k * k : ℕ) : ℚ) * g ≤ n * g :=
    mul_le_mul_of_nonneg_right (mod_cast Nat.div_mul_le_self n k) hg.le
  have hhigh : ((n + 1 : ℕ) : ℚ) * g ≤ ((n / k + 1) * k : ℕ) * g :=
    mul_le_mul_of_nonneg_right (mod_cast (Nat.lt_mul_div_succ n hk).trans_eq (mul_comm _ _)) hg.le
  push_cast at hlow hhigh
  exact ⟨by linarith, by linarith⟩

theorem Register.ulp_eq (r : Register) : r.ulp = 100 * guardUnit (expInt r.exp) := by
  rw [Register.ulp, ← ulp_eq_guardUnit, expInt]
  ring_nf

/-- R13, R85: a magnitude is its loaded buffer in units of the last guard digit. -/
theorem Register.magnitude_eq (r : Register) : r.magnitude = digitsNat (load r) * guardUnit (expInt r.exp) := by
  rw [Register.magnitude, Register.ulp_eq, digitsNat_load]
  push_cast
  ring

/-- A leading digit 1..9 puts a digit at the top of the loaded buffer. -/
theorem digitsNat_load_of_lead {r : Register} (h : r.mant[0] ≠ 0) : 10 ^ 15 ≤ digitsNat (load r) := by
  have hsig := r.mant_zero_ne_zero_iff.mp h
  rw [digitsNat_load]
  omega

/-- A buffer with a digit at its top is far more than the guard digits can say. -/
theorem ten_guardUnit_le {b : Buf} (h : 10 ^ 15 ≤ digitsNat b) (e : Int) :
    10 * guardUnit e ≤ digitsNat b * guardUnit e := by
  have hten : 10 ≤ digitsNat b := le_trans (by norm_num) h
  exact mul_le_mul_of_nonneg_right (mod_cast hten) (guardUnit_pos e).le

theorem Register.ten_guardUnit_le_magnitude {r : Register} (h : r.mant[0] ≠ 0) :
    10 * guardUnit (expInt r.exp) ≤ r.magnitude := by
  rw [Register.magnitude_eq]
  exact ten_guardUnit_le (digitsNat_load_of_lead h) _

theorem Register.magnitude_pos {r : Register} (h : r.mant[0] ≠ 0) : 0 < r.magnitude := by
  linarith [Register.ten_guardUnit_le_magnitude h, guardUnit_pos (expInt r.exp)]

/-! ### Results -/

/-- R85: a stored buffer keeps its first 14 digits. -/
theorem significand_store (s : Bool) {b : Buf} (h : b.length = 16) (e : BitVec 8) :
    (⟨s, store b, e⟩ : Register).significand = digitsNat b / 100 := by
  rw [Register.significand, store, digitsNat_mantissaOf, h]
  omega

/-- A register whose significand is the exact magnitude's, cut, is the truncation. -/
theorem truncationOf_of_bounds {r : Register} {ov : Bool} (e : Int) {m : ℚ} (hexp : (r.exp.toNat : Int) = e % 256)
    (hov : ov = true ↔ e < 1 ∨ 255 < e) (hlead : r.mant[0] ≠ 0) (hlow : r.significand * (100 * guardUnit e) ≤ m)
    (hhigh : m < (r.significand + 1) * (100 * guardUnit e)) : TruncationOf r ov (signFactor r.sign * m) := by
  have hpos : 0 < m := by
    have hsig : 0 < r.significand := lt_of_lt_of_le (by norm_num) (r.mant_zero_ne_zero_iff.mp hlead)
    have hunit := guardUnit_pos e
    exact lt_of_lt_of_le (by positivity) hlow
  refine ⟨e, hexp, hov, hlead, ?_, ?_, signFactor_mul_neg_iff _ hpos⟩
  · rwa [abs_signFactor_mul _ hpos, ulp_eq_guardUnit]
  · rwa [abs_signFactor_mul _ hpos, ulp_eq_guardUnit]

/-- R85, R94: a buffer that holds the exact magnitude, cut at its last digit, is stored as the truncation. -/
theorem truncationOf_store (s : Bool) {b : Buf} (hlen : b.length = 16) (hlead : b.headD 0 ≠ 0) (e : Int) {m : ℚ}
    (hlow : digitsNat b * guardUnit e ≤ m) (hhigh : m < (digitsNat b + 1) * guardUnit e) :
    TruncationOf ⟨s, store b, storeExp e⟩ (expOverflow e) (signFactor s * m) := by
  obtain ⟨hbelow, habove⟩ := cut_bounds (digitsNat b) (k := 100) (by norm_num) (guardUnit_pos e)
  refine truncationOf_of_bounds e (storeExp_toNat e) (expOverflow_iff e) (by rwa [store_zero]) ?_ ?_
  · rw [significand_store s hlen]
    exact hbelow.trans hlow
  · rw [significand_store s hlen]
    exact hhigh.trans_le habove

/-- R156 (c): a buffer less than ten guard units above the exact magnitude is stored within the weaker bound. -/
theorem nearResultOf_store (s : Bool) {b : Buf} (hlen : b.length = 16) (hlead : b.headD 0 ≠ 0) (e : Int) {m : ℚ}
    (hlow : (digitsNat b : ℚ) * guardUnit e < m + 10 * guardUnit e) (hhigh : m ≤ digitsNat b * guardUnit e) :
    NearResultOf ⟨s, store b, storeExp e⟩ (expOverflow e) (signFactor s * m) := by
  obtain ⟨hbelow, habove⟩ := cut_bounds (digitsNat b) (k := 100) (by norm_num) (guardUnit_pos e)
  push_cast at hbelow habove
  have hpos : 0 < m := by linarith [ten_guardUnit_le ((headD_ne_zero_iff hlen).mp hlead) e]
  refine ⟨e, storeExp_toNat e, expOverflow_iff e, by rwa [store_zero], ?_, ?_, signFactor_mul_neg_iff s hpos⟩
  · rw [significand_store s hlen, abs_signFactor_mul s hpos, ulp_eq_guardUnit]
    linarith [guardUnit_pos e]
  · rw [significand_store s hlen, abs_signFactor_mul s hpos, ulp_eq_guardUnit]
    linarith

end Sys2Proof.Machine
end

section
/-! SUPPORT. The accuracy of the add/subtract engine: its two paths on aligned buffers, the collapse, and the bounds of R156
(42_addsub.md R146 to R152, R156). -/

namespace Sys2Proof.Machine

/-! ### Alignment -/

/-- R146: the second operand is shifted where its exponent is not the larger. -/
theorem align_of_le {x y : Register} {d : Nat} (h : x.exp.toNat = y.exp.toNat + d) :
    align x y = (load x, shiftRight (load y) d, expInt x.exp) := by
  have hdiff : expDiff x.exp y.exp = d := by simp only [expDiff, expInt]; omega
  have hge : ¬ expInt x.exp < expInt y.exp := by simp only [expInt]; omega
  rw [align, if_neg hge, hdiff]

theorem guardUnit_of_exp_add {x y : Register} {d : Nat} (h : x.exp.toNat = y.exp.toNat + d) :
    guardUnit (expInt x.exp) = 10 ^ d * guardUnit (expInt y.exp) := by
  rw [← guardUnit_add, expInt, expInt, h, Nat.cast_add]

/-- R146: the shifted buffer is the smaller operand's magnitude, cut at the last guard digit. -/
theorem magnitude_shiftRight {x y : Register} {d : Nat} (h : x.exp.toNat = y.exp.toNat + d) :
    digitsNat (shiftRight (load y) d) * guardUnit (expInt x.exp) ≤ y.magnitude ∧
      y.magnitude < (digitsNat (shiftRight (load y) d) + 1) * guardUnit (expInt x.exp) := by
  obtain ⟨hbelow, habove⟩ := cut_bounds (digitsNat (load y)) (k := 10 ^ d) (by positivity) (guardUnit_pos (expInt y.exp))
  push_cast at hbelow habove
  rw [guardUnit_of_exp_add h, digitsNat_shiftRight (length_load y), y.magnitude_eq]
  exact ⟨hbelow, by linarith [guardUnit_pos (expInt y.exp)]⟩

/-- R146: up to two places the shift loses no digit, since the guard digits are 0. -/
theorem magnitude_shiftRight_exact {x y : Register} {d : Nat} (h : x.exp.toNat = y.exp.toNat + d) (hd : d ≤ 2) :
    y.magnitude = digitsNat (shiftRight (load y) d) * guardUnit (expInt x.exp) := by
  have hdvd : 10 ^ d ∣ digitsNat (load y) := by
    rw [digitsNat_load]
    exact (pow_dvd_pow 10 hd).mul_right _
  have hexact : ((digitsNat (load y) / 10 ^ d : ℕ) : ℚ) * 10 ^ d = digitsNat (load y) :=
    mod_cast Nat.div_mul_cancel hdvd
  rw [guardUnit_of_exp_add h, digitsNat_shiftRight (length_load y), y.magnitude_eq, ← mul_assoc, hexact]

/-- R147: an operand more than 14 places below is less than a tenth of the other's ulp. -/
theorem magnitude_lt_of_far {x y : Register} (h : y.exp.toNat + 14 < x.exp.toNat) :
    y.magnitude < 10 * guardUnit (expInt x.exp) := by
  obtain ⟨d, hd⟩ := Nat.exists_eq_add_of_le h
  have hbound : (digitsNat (load y) : ℚ) < 10 ^ 16 := mod_cast (length_load y) ▸ digitsNat_lt (load y)
  have hunit := guardUnit_pos (expInt y.exp)
  have hpow : (1 : ℚ) ≤ 10 ^ d := one_le_pow₀ (by norm_num)
  rw [guardUnit_of_exp_add (show x.exp.toNat = y.exp.toNat + (15 + d) by omega), y.magnitude_eq]
  calc digitsNat (load y) * guardUnit (expInt y.exp) < 10 ^ 16 * guardUnit (expInt y.exp) :=
        mul_lt_mul_of_pos_right hbound hunit
    _ ≤ 10 ^ 16 * 10 ^ d * guardUnit (expInt y.exp) := by nlinarith
    _ = 10 * (10 ^ (15 + d) * guardUnit (expInt y.exp)) := by ring

/-! ### The two paths on aligned buffers -/

/-- R149: the shift after a carry past the top digit drops the sum's last digit and no other. -/
theorem digitsNat_carry {b : Buf} (hlen : b.length = 16) :
    digitsNat ((shiftRightOne b).set 0 1) = (digitsNat b + 10 ^ 16) / 10 := by
  have hne : b ≠ [] := List.ne_nil_of_length_pos (by omega)
  have hlen' := length_shiftRightOne hlen
  rw [digitsNat_set_of_zero 1 (by omega) (by simp [shiftRightOne]), digitsNat_shiftRightOne hne, hlen', Fin.val_one]
  omega

/-- R148, R149: where the buffers hold the exact magnitude, cut, so does the result. -/
theorem effectiveAddition_truncates (sx : Bool) {a b : Buf} (e : Int) {m : ℚ} (ha : a.length = 16) (hb : b.length = 16)
    (hlead : 10 ^ 15 ≤ digitsNat a + digitsNat b) (hlow : (digitsNat a + digitsNat b) * guardUnit e ≤ m)
    (hhigh : m < (digitsNat a + digitsNat b + 1) * guardUnit e) :
    ∃ r ov, effectiveAddition sx a b e = .value r false ov ∧ TruncationOf r ov (signFactor sx * m) := by
  have hsum := digitsNat_addBuf (ha.trans hb.symm)
  have hlen : (addBuf a b).1.length = 16 := by simp [length_addBuf, ha, hb]
  rw [ha] at hsum
  rw [effectiveAddition]
  split
  next hcarry =>
    rw [hcarry, Bool.toNat_true, mul_one] at hsum
    obtain ⟨hbelow, habove⟩ := cut_bounds (digitsNat a + digitsNat b) (k := 10) (by norm_num) (guardUnit_pos e)
    push_cast at hbelow habove
    refine ⟨_, _, rfl, truncationOf_store sx ?_ ?_ _ ?_ ?_⟩
    · rw [List.length_set, length_shiftRightOne hlen]
    · simp [shiftRightOne]
    · rw [digitsNat_carry hlen, hsum, expInc, guardUnit_succ]
      exact hbelow.trans hlow
    · rw [digitsNat_carry hlen, hsum, expInc, guardUnit_succ]
      exact hhigh.trans_le habove
  next hcarry =>
    rw [Bool.eq_false_of_not_eq_true hcarry, Bool.toNat_false, mul_zero, add_zero] at hsum
    refine ⟨_, _, rfl, truncationOf_store sx hlen ?_ e ?_ ?_⟩
    · exact (headD_ne_zero_iff hlen).mpr (hlead.trans_eq hsum.symm)
    · rw [hsum]
      exact_mod_cast hlow
    · rw [hsum]
      exact_mod_cast hhigh

/-- R151: normalization keeps the number, in units of the last guard digit. -/
theorem normalize_value (n : Nat) (r : Buf) (e : Int) :
    (digitsNat (normalize n r e).1 : ℚ) * guardUnit (normalize n r e).2 = digitsNat r * guardUnit e := by
  induction n generalizing r e with
  | zero => rfl
  | succ n ih =>
    rw [normalize]
    split
    next hlead =>
      have hunit : guardUnit e = 10 * guardUnit (expDec e) := by rw [← guardUnit_succ, expDec, sub_add_cancel]
      rw [ih, digitsNat_shiftLeftOne hlead, hunit]
      push_cast
      ring
    next => rfl

theorem normalize_of_lead (n : Nat) {r : Buf} (e : Int) (h : r.headD 0 ≠ 0) : normalize n r e = (r, e) := by
  cases n with
  | zero => rfl
  | succ n => rw [normalize, if_neg h]

/-- R151: a number at most one place short is normalized in at most one round. -/
theorem normalize_exp_of_le (n : Nat) {r : Buf} (e : Int) (hlen : r.length = 16) (h : 10 ^ 14 ≤ digitsNat r) :
    (normalize n r e).2 = e ∨ (normalize n r e).2 = e - 1 := by
  cases n with
  | zero => exact .inl rfl
  | succ n =>
    rw [normalize]
    split
    next hlead => exact .inr (by rw [normalize_of_lead n _ (shiftLeftOne_lead hlen h hlead), expDec])
    next => exact .inl rfl

/-- R150: the sign of the result, flipped by the swap, goes with the distance of the buffers. -/
theorem signed_difference (sx : Bool) {a b : Buf} (ha : a.length = 16) (hb : b.length = 16) (g : ℚ) :
    signFactor sx * (((digitsNat a : ℚ) - digitsNat b) * g) =
      signFactor (sx ^^ !compareGe a b) * (|(digitsNat a : ℚ) - digitsNat b| * g) := by
  have hge := compareGe_iff (ha.trans hb.symm)
  cases hcmp : compareGe a b
  · have hlt : (digitsNat a : ℚ) < digitsNat b := by
      rw [hcmp] at hge
      exact_mod_cast not_le.mp (hge.not.mp Bool.false_ne_true)
    rw [abs_of_neg (sub_neg.mpr hlt), Bool.not_false, Bool.xor_true, signFactor_not]
    ring
  · have hle : (digitsNat b : ℚ) ≤ digitsNat a := mod_cast hge.mp hcmp
    rw [abs_of_nonneg (sub_nonneg.mpr hle), Bool.not_true, Bool.xor_false]

/-- R150, R151: where the buffers hold the exact operands, the result is the exact difference truncated, or true zero. -/
theorem effectiveSubtraction_truncates (sx : Bool) {a b : Buf} (e : Int) (ha : a.length = 16) (hb : b.length = 16) :
    ∃ r ov, effectiveSubtraction sx a b e = .value r false ov ∧
      if signFactor sx * (((digitsNat a : ℚ) - digitsNat b) * guardUnit e) = 0 then r = Register.trueZero ∧ ov = false
      else TruncationOf r ov (signFactor sx * (((digitsNat a : ℚ) - digitsNat b) * guardUnit e)) := by
  obtain ⟨r, hlen, hdigits, heq⟩ := effectiveSubtraction_eq sx e ha hb
  have hdiff : (digitsNat r : ℚ) = |(digitsNat a : ℚ) - digitsNat b| := by
    rw [hdigits, Nat.cast_natAbs]
    push_cast
    rfl
  rw [heq]
  split
  next hz =>
    rw [isZero_iff_digitsNat.mp hz, Nat.cast_zero, eq_comm, abs_eq_zero] at hdiff
    exact ⟨_, _, rfl, by simp [hdiff]⟩
  next hz =>
    rw [isZero_iff_digitsNat] at hz
    have hne : (digitsNat a : ℚ) - digitsNat b ≠ 0 := by
      rw [← abs_pos, ← hdiff]
      exact_mod_cast Nat.pos_of_ne_zero hz
    have hvalue := normalize_value 15 r e
    refine ⟨_, _, rfl, ?_⟩
    rw [if_neg (mul_ne_zero (signFactor_ne_zero sx) (mul_ne_zero hne (guardUnit_pos e).ne')), signed_difference sx ha hb,
      ← hdiff]
    refine truncationOf_store _ (length_normalize 15 e hlen) (normalize_lead e hlen (by omega)) _ hvalue.le ?_
    linarith [guardUnit_pos (normalize 15 r e).2]

/-- R156 (c): where the subtracted buffer is the smaller operand, cut, the result is within the weaker bound. -/
theorem effectiveSubtraction_near (sx : Bool) {a b : Buf} (e : Int) {m : ℚ} (ha : a.length = 16) (hb : b.length = 16)
    (hlead : digitsNat b + 10 ^ 14 ≤ digitsNat a) (hlow : ((digitsNat a : ℚ) - digitsNat b - 1) * guardUnit e < m)
    (hhigh : m ≤ ((digitsNat a : ℚ) - digitsNat b) * guardUnit e) :
    ∃ r ov, effectiveSubtraction sx a b e = .value r false ov ∧ NearResultOf r ov (signFactor sx * m) := by
  obtain ⟨r, hlen, hdigits, heq⟩ := effectiveSubtraction_eq sx e ha hb
  have hge : compareGe a b = true := (compareGe_iff (ha.trans hb.symm)).mpr (by omega)
  have hz : ¬ isZero r = true := by
    rw [isZero_iff_digitsNat]
    omega
  have hdiff : (digitsNat r : ℚ) = (digitsNat a : ℚ) - digitsNat b := by
    rw [← Nat.cast_sub (by omega)]
    exact congrArg Nat.cast (by omega)
  have hunit : guardUnit e ≤ 10 * guardUnit (normalize 15 r e).2 := by
    rcases normalize_exp_of_le 15 e hlen (by omega) with hsame | hless
    · rw [hsame]
      linarith [guardUnit_pos e]
    · rw [hless, ← guardUnit_succ, sub_add_cancel]
  have hvalue := normalize_value 15 r e
  rw [hdiff] at hvalue
  rw [heq, if_neg hz, hge, Bool.not_true, Bool.xor_false]
  refine ⟨_, _, rfl, nearResultOf_store _ (length_normalize 15 e hlen) (normalize_lead e hlen (by omega)) _ ?_ ?_⟩
  · rw [hvalue]
    linarith
  · rw [hvalue]
    exact hhigh

/-! ### The engine on two operands with leading digits, the first one's exponent not the smaller -/

/-- R156: ADD and SUB both add the second operand as an addition takes it. -/
theorem exactSum_eq (x y : Register) (sub : Bool) : exactSum x y sub = x.value + (y.operand sub).value := by
  cases sub
  · rw [Register.operand_false]
    rfl
  · have hneg : y.negate.value = -y.value := by
      rw [Register.value_eq, Register.value_eq, ← neg_mul, ← signFactor_not]
      rfl
    rw [Register.operand_true, hneg, ← sub_eq_add_neg]
    rfl

theorem value_add_of_sign_eq {x y : Register} (h : y.sign = x.sign) :
    x.value + y.value = signFactor x.sign * (x.magnitude + y.magnitude) := by
  rw [x.value_eq, y.value_eq, h]
  ring

theorem value_add_of_sign_ne {x y : Register} (h : y.sign ≠ x.sign) :
    x.value + y.value = signFactor x.sign * (x.magnitude - y.magnitude) := by
  rw [x.value_eq, y.value_eq, Bool.eq_not.mpr h, signFactor_not]
  ring

theorem addsub_of_sign_eq {x y : Register} (hx : x.mant[0] ≠ 0) (hy : y.mant[0] ≠ 0) (hs : y.sign = x.sign) {d : Nat}
    (hexp : x.exp.toNat = y.exp.toNat + d) (hd : d ≤ 14) :
    addsub x y false = effectiveAddition x.sign (load x) (shiftRight (load y) d) (expInt x.exp) := by
  have hdiff : expDiff x.exp y.exp ≤ 14 := by simp only [expDiff, expInt]; omega
  rw [addsub_aligned (regIsZero_of_lead hx) (regIsZero_of_lead hy) hdiff, align_of_le hexp,
    if_pos ((effectiveAdd_iff _ _ _).mpr (by rwa [Bool.xor_false]))]

theorem addsub_of_sign_ne {x y : Register} (hx : x.mant[0] ≠ 0) (hy : y.mant[0] ≠ 0) (hs : y.sign ≠ x.sign) {d : Nat}
    (hexp : x.exp.toNat = y.exp.toNat + d) (hd : d ≤ 14) :
    addsub x y false = effectiveSubtraction x.sign (load x) (shiftRight (load y) d) (expInt x.exp) := by
  have hdiff : expDiff x.exp y.exp ≤ 14 := by simp only [expDiff, expInt]; omega
  rw [addsub_aligned (regIsZero_of_lead hx) (regIsZero_of_lead hy) hdiff, align_of_le hexp,
    if_neg ((effectiveAdd_iff _ _ _).not.mpr (by rwa [Bool.xor_false]))]

/-- R94, R147: a collapsed effective addition, the other operand being less than a tenth of an ulp. -/
theorem truncationOf_collapse {x y : Register} (hx : x.mant[0] ≠ 0) (hy : y.mant[0] ≠ 0)
    (hfar : y.exp.toNat + 14 < x.exp.toNat) :
    TruncationOf x false (signFactor x.sign * (x.magnitude + y.magnitude)) := by
  have hpos := Register.magnitude_pos hy
  have hsmall := magnitude_lt_of_far hfar
  have hmag : x.magnitude = x.significand * (100 * guardUnit (expInt x.exp)) := by rw [Register.magnitude, x.ulp_eq]
  have hbyte := x.exp.isLt
  refine truncationOf_of_bounds (expInt x.exp) ?_ ?_ hx ?_ ?_
  · rw [expInt]
    omega
  · rw [expInt]
    exact iff_of_false Bool.false_ne_true (by omega)
  · rw [hmag]
    linarith
  · rw [hmag]
    linarith [guardUnit_pos (expInt x.exp)]

/-- R156 (a): operands of one sign, aligned or collapsed. The larger exponent may be taken to be the first one's, here and in
the laws below, since the engine's addition commutes. -/
theorem add_truncates {x y : Register} (hx : x.mant[0] ≠ 0) (hy : y.mant[0] ≠ 0) (hs : y.sign = x.sign) :
    ∃ r ov, addsub x y false = .value r false ov ∧ TruncationOf r ov (x.value + y.value) := by
  wlog hle : y.exp.toNat ≤ x.exp.toNat generalizing x y with hsym
  · rw [addsub_comm, add_comm]
    exact hsym hy hx hs.symm (le_of_not_ge hle)
  rw [value_add_of_sign_eq hs]
  obtain ⟨d, hexp⟩ := Nat.exists_eq_add_of_le hle
  by_cases hd : d ≤ 14
  · obtain ⟨hbelow, habove⟩ := magnitude_shiftRight hexp
    rw [addsub_of_sign_eq hx hy hs hexp hd]
    refine effectiveAddition_truncates x.sign _ (length_load x) (length_shiftRight (length_load y) d)
      ((digitsNat_load_of_lead hx).trans (Nat.le_add_right _ _)) ?_ ?_
    · rw [x.magnitude_eq]
      linarith
    · rw [x.magnitude_eq]
      linarith
  · have hfar : y.exp.toNat + 14 < x.exp.toNat := by omega
    exact ⟨x, false, addsub_collapse_left (regIsZero_of_lead hx) (regIsZero_of_lead hy) hfar false,
      truncationOf_collapse hx hy hfar⟩

/-- R156 (b): the alignment loses no digit, so the difference is exact. -/
theorem add_close_truncates {x y : Register} (hx : x.mant[0] ≠ 0) (hy : y.mant[0] ≠ 0) (hs : y.sign ≠ x.sign)
    (hdiff : expDiff x.exp y.exp ≤ 2) :
    ∃ r ov, addsub x y false = .value r false ov ∧
      if x.value + y.value = 0 then r = Register.trueZero ∧ ov = false else TruncationOf r ov (x.value + y.value) := by
  wlog hle : y.exp.toNat ≤ x.exp.toNat generalizing x y with hsym
  · rw [addsub_comm, add_comm]
    exact hsym hy hx hs.symm (by rwa [expDiff_comm]) (le_of_not_ge hle)
  obtain ⟨d, hexp⟩ := Nat.exists_eq_add_of_le hle
  have hd : d ≤ 2 := by
    simp only [expDiff, expInt] at hdiff
    omega
  rw [value_add_of_sign_ne hs, addsub_of_sign_ne hx hy hs hexp (by omega), x.magnitude_eq,
    magnitude_shiftRight_exact hexp hd, ← sub_mul]
  exact effectiveSubtraction_truncates x.sign _ (length_load x) (length_shiftRight (length_load y) d)

/-- R156 (c): the alignment loses less than a guard unit, and the difference is at most one place short. -/
theorem add_far_near {x y : Register} (hx : x.mant[0] ≠ 0) (hy : y.mant[0] ≠ 0) (hs : y.sign ≠ x.sign)
    (hleast : 3 ≤ expDiff x.exp y.exp) (hgreatest : expDiff x.exp y.exp ≤ 14) :
    ∃ r ov, addsub x y false = .value r false ov ∧ NearResultOf r ov (x.value + y.value) := by
  wlog hle : y.exp.toNat ≤ x.exp.toNat generalizing x y with hsym
  · rw [addsub_comm, add_comm]
    exact hsym hy hx hs.symm (by rwa [expDiff_comm]) (by rwa [expDiff_comm]) (le_of_not_ge hle)
  obtain ⟨d, hexp⟩ := Nat.exists_eq_add_of_le hle
  obtain ⟨hd, hd'⟩ : 3 ≤ d ∧ d ≤ 14 := by
    simp only [expDiff, expInt] at hleast hgreatest
    omega
  obtain ⟨hbelow, habove⟩ := magnitude_shiftRight hexp
  have hshifted : digitsNat (shiftRight (load y) d) < 10 ^ 13 := by
    have hbound := (length_load y) ▸ digitsNat_lt (load y)
    rw [digitsNat_shiftRight (length_load y)]
    calc digitsNat (load y) / 10 ^ d ≤ digitsNat (load y) / 10 ^ 3 :=
          Nat.div_le_div_left (Nat.pow_le_pow_right (by norm_num) hd) (by norm_num)
      _ < 10 ^ 13 := by omega
  have hload := digitsNat_load_of_lead hx
  rw [value_add_of_sign_ne hs, addsub_of_sign_ne hx hy hs hexp hd', x.magnitude_eq]
  refine effectiveSubtraction_near x.sign _ (length_load x) (length_shiftRight (length_load y) d) (by omega) ?_ ?_
  · linarith
  · linarith

/-- R156 (d): the operand left out is less than a tenth of an ulp of the one that comes back. -/
theorem add_collapsed_bound {x y : Register} (hx : x.mant[0] ≠ 0) (hy : y.mant[0] ≠ 0) (hs : y.sign ≠ x.sign)
    (hdiff : 14 < expDiff x.exp y.exp) :
    ∃ r, addsub x y false = .value r false false ∧ |x.value + y.value| < r.magnitude ∧
      r.magnitude < |x.value + y.value| + r.ulp / 10 ∧ (r.sign = true ↔ x.value + y.value < 0) := by
  wlog hle : y.exp.toNat ≤ x.exp.toNat generalizing x y with hsym
  · rw [addsub_comm, add_comm]
    exact hsym hy hx hs.symm (by rwa [expDiff_comm]) (le_of_not_ge hle)
  have hfar : y.exp.toNat + 14 < x.exp.toNat := by
    simp only [expDiff, expInt] at hdiff
    omega
  have hy0 := Register.magnitude_pos hy
  have hsmall := magnitude_lt_of_far hfar
  have hpos : 0 < x.magnitude - y.magnitude := by linarith [Register.ten_guardUnit_le_magnitude hx]
  refine ⟨x, addsub_collapse_left (regIsZero_of_lead hx) (regIsZero_of_lead hy) hfar false, ?_⟩
  rw [value_add_of_sign_ne hs, abs_signFactor_mul _ hpos, x.ulp_eq]
  exact ⟨by linarith, by linarith, signFactor_mul_neg_iff _ hpos⟩

/-! ### The statements -/

/-- Settles O36, by the engine's addition of the second operand as it is taken. -/
theorem effectiveAdditionTruncates : Obligations.EffectiveAdditionTruncates := by
  intro x y sub hx hy hs
  rw [addsub_eq_add, exactSum_eq]
  exact add_truncates hx hy hs

/-- Settles O37, in the same way. -/
theorem closeSubtractionTruncates : Obligations.CloseSubtractionTruncates := by
  intro x y sub hx hy hs hdiff
  rw [addsub_eq_add, exactSum_eq]
  exact add_close_truncates (y := y.operand sub) hx hy hs hdiff

/-- Settles O38, in the same way. -/
theorem farSubtractionBound : Obligations.FarSubtractionBound := by
  intro x y sub hx hy hs hleast hgreatest
  rw [addsub_eq_add, exactSum_eq]
  exact add_far_near (y := y.operand sub) hx hy hs hleast hgreatest

/-- Settles O39, in the same way. -/
theorem collapsedSubtractionBound : Obligations.CollapsedSubtractionBound := by
  intro x y sub hx hy hs hdiff
  rw [addsub_eq_add, exactSum_eq]
  exact add_collapsed_bound (y := y.operand sub) hx hy hs hdiff

end Sys2Proof.Machine
end

section
/-! SUPPORT. The multiply engine branch by branch: true zero for a zero operand, else the floor of the product, normalized; its
symmetry, its neutral element, its accuracy, and the statements about MUL (43_mul.md R170 to R179). -/

namespace Sys2Proof.Machine

/-! ### The branches -/

/-- R171. -/
theorem mul_of_zero_operand {x y : Register} (h : regIsZero x = true ∨ regIsZero y = true) :
    mul x y = returned Register.trueZero := by
  rw [mul, if_pos (by rwa [Bool.or_eq_true])]
  rfl

/-- R172 to R177. -/
theorem mul_of_accumulator {x y : Register} (hx : ¬ regIsZero x = true) (hy : ¬ regIsZero y = true) {acc : Buf}
    (hrun : mulAccumulator x y = some acc) : mul x y = mulNormalize (x.sign ^^ y.sign) acc (expAdd x.exp y.exp) := by
  have hz : ¬ (regIsZero x || regIsZero y) = true := by simp [hx, hy]
  simp only [mul, if_neg hz, hrun]

/-- R176: an accumulator one place short is shifted, and keeps the exact exponent. -/
theorem mulNormalize_of_short {acc : Buf} (h : acc.headD 0 = 0) (s : Bool) (e : Int) :
    mulNormalize s acc e = computed s (shiftLeftOne acc) e := by
  rw [mulNormalize, if_pos h, computed]

/-- R176: a full accumulator stays, and the exact exponent is one more. -/
theorem mulNormalize_of_lead {acc : Buf} (h : acc.headD 0 ≠ 0) (s : Bool) (e : Int) :
    mulNormalize s acc e = computed s acc (expInc e) := by
  rw [mulNormalize, if_neg h, computed]

/-! ### Completion -/

/-- R175: no carry escapes the accumulator, so the engine always has a result. -/
theorem mul_value (x y : Register) : ∃ r ov, mul x y = .value r false ov := by
  by_cases hx : regIsZero x = true
  · exact ⟨_, _, mul_of_zero_operand (.inl hx)⟩
  by_cases hy : regIsZero y = true
  · exact ⟨_, _, mul_of_zero_operand (.inr hy)⟩
  obtain ⟨acc, hrun, -, -⟩ := mulAccumulator_value x y
  rw [mul_of_accumulator hx hy hrun]
  by_cases hlead : acc.headD 0 = 0
  · exact ⟨_, _, mulNormalize_of_short hlead _ _⟩
  · exact ⟨_, _, mulNormalize_of_lead hlead _ _⟩

/-- R170: the end of a command whose only flag is OV, in the fields of the next state. -/
theorem State.finish_ov (s : State) (rd : RegIndex) (r : Register) (ov : Bool) :
    s.finish rd (.value r false ov) =
      { s with dr := s.dr.set rd.val r rd.isLt, status := if ov then 0x02#8 else 0x00#8, running := none } := by
  rw [State.finish_value, statusOf_ov]

/-! ### Symmetry -/

/-- The two orders of the schoolbook loop differ digit by digit, but both end in the floor of the one product. -/
theorem mulAccumulator_comm (x y : Register) : mulAccumulator x y = mulAccumulator y x := by
  obtain ⟨acc, hrun, hlen, hval⟩ := mulAccumulator_value x y
  obtain ⟨acc', hrun', hlen', hval'⟩ := mulAccumulator_value y x
  rw [hrun, hrun', digitsNat_injective (hlen.trans hlen'.symm) (by rw [hval, hval', mul_comm])]

theorem expAdd_comm (ex ey : BitVec 8) : expAdd ex ey = expAdd ey ex := by
  simp only [expAdd]
  ring

/-- R179. -/
theorem mul_operands_comm (x y : Register) : mul x y = mul y x := by
  rw [mul, mul, Bool.or_comm, mulAccumulator_comm, Bool.xor_comm, expAdd_comm]

/-! ### The neutral element -/

theorem storeExp_expInt (e : BitVec 8) : storeExp (expInt e) = e := by
  have hbyte := e.isLt
  have hstored := storeExp_toNat (expInt e)
  rw [expInt] at hstored ⊢
  exact BitVec.eq_of_toNat_eq (by omega)

/-- R94: a stored exponent taken unchanged is outside 1..255 only where it is 0. -/
theorem expOverflow_expInt (e : BitVec 8) : expOverflow (expInt e) = decide (e = 0#8) := by
  have hbyte := e.isLt
  rw [Bool.eq_iff_iff, expOverflow_iff, decide_eq_true_iff, ← BitVec.toNat_inj, expInt, BitVec.toNat_ofNat]
  omega

/-- An operand loaded and stored again comes back with its exponent; OV where that is 0 (R94). -/
theorem computed_load (x : Register) :
    computed x.sign (load x) (expInt x.exp) = .value x false (decide (x.exp = 0#8)) := by
  rw [computed, store_load, storeExp_expInt, expOverflow_expInt]

theorem expAdd_bias (e : BitVec 8) : expAdd e 128#8 = expInt e := by simp [expAdd, expInt]

theorem Register.one_significand : Register.one.significand = 10 ^ 13 := by
  rw [Register.significand, Register.one, digitsNat_mantissaOf]
  rfl

theorem Register.one_mant_zero : Register.one.mant[0] ≠ 0 := by simp [Register.one]

/-- The left shift takes back the right shift of a pre-shifted operand, whose lost digit is a guard digit 0. -/
theorem shiftLeftOne_preShift (x : Register) : shiftLeftOne (preShift x) = load x := by
  have hlen := (length_shiftLeftOne (length_preShift x)).trans (length_load x).symm
  refine digitsNat_injective hlen ?_
  rw [digitsNat_shiftLeftOne rfl, digitsNat_preShift, digitsNat_load]
  ring

/-- R179: the product with one, before normalization, is the first operand one place to the right. -/
theorem mulAccumulator_one (x : Register) : mulAccumulator x Register.one = some (preShift x) := by
  obtain ⟨acc, hrun, hlen, hval⟩ := mulAccumulator_value x Register.one
  have hacc : digitsNat acc = digitsNat (preShift x) := by
    rw [hval, digitsNat_preShift, Register.one_significand]
    omega
  rw [hrun, digitsNat_injective (hlen.trans (length_preShift x).symm) hacc]

theorem mul_by_one {x : Register} (hx : ¬ regIsZero x = true) :
    mul x Register.one = .value x false (decide (x.exp = 0#8)) := by
  calc mul x Register.one
      = mulNormalize (x.sign ^^ false) (preShift x) (expAdd x.exp 128#8) :=
        mul_of_accumulator hx (regIsZero_of_lead Register.one_mant_zero) (mulAccumulator_one x)
    _ = computed x.sign (load x) (expInt x.exp) := by
        rw [mulNormalize_of_short rfl, Bool.xor_false, expAdd_bias, shiftLeftOne_preShift]
    _ = .value x false (decide (x.exp = 0#8)) := computed_load x

/-! ### Accuracy -/

theorem signFactor_xor (s t : Bool) : signFactor (s ^^ t) = signFactor s * signFactor t := by
  cases s <;> cases t <;> simp [signFactor]

theorem value_mul (x y : Register) :
    x.value * y.value = signFactor (x.sign ^^ y.sign) * (x.magnitude * y.magnitude) := by
  rw [x.value_eq, y.value_eq, signFactor_xor]
  ring

/-- R93: the unit of a product of significands, 10^12 of which are one guard unit at the exponent of a full accumulator. -/
theorem ulp_mul_ulp (x y : Register) : 10 ^ 12 * (x.ulp * y.ulp) = guardUnit (expInc (expAdd x.exp y.exp)) := by
  rw [Register.ulp, Register.ulp, guardUnit, ← zpow_natCast, ← zpow_add₀ (by norm_num), ← zpow_add₀ (by norm_num)]
  congr 1
  simp only [expInc, expAdd, expInt]
  push_cast
  ring

/-- R179: the accumulator is the exact magnitude, cut at its last digit, where the leading digit has index 0. -/
theorem mulAccumulator_bounds {x y : Register} {acc : Buf}
    (hval : digitsNat acc = x.significand * y.significand / 10 ^ 12) :
    digitsNat acc * guardUnit (expInc (expAdd x.exp y.exp)) ≤ x.magnitude * y.magnitude ∧
      x.magnitude * y.magnitude < (digitsNat acc + 1) * guardUnit (expInc (expAdd x.exp y.exp)) := by
  have hunit : 0 < x.ulp * y.ulp := by
    rw [Register.ulp, Register.ulp]
    positivity
  have hmag : x.magnitude * y.magnitude = ((x.significand * y.significand : ℕ) : ℚ) * (x.ulp * y.ulp) := by
    rw [Register.magnitude, Register.magnitude]
    push_cast
    ring
  obtain ⟨hbelow, habove⟩ := cut_bounds (x.significand * y.significand) (k := 10 ^ 12) (by norm_num) hunit
  rw [← hval, Nat.cast_pow, Nat.cast_ofNat, ulp_mul_ulp] at hbelow habove
  rw [hmag]
  exact ⟨hbelow, by linarith⟩

/-- R176: an accumulator of at least 15 places that holds the exact magnitude, cut, is normalized to the truncation. The left
shift brings in a 0 that is no digit of the product, but it stands among the guard digits. -/
theorem mulNormalize_truncates (s : Bool) {acc : Buf} (e : Int) {m : ℚ} (hlen : acc.length = 16)
    (hplaces : 10 ^ 14 ≤ digitsNat acc) (hlow : digitsNat acc * guardUnit (expInc e) ≤ m)
    (hhigh : m < (digitsNat acc + 1) * guardUnit (expInc e)) :
    ∃ r ov, mulNormalize s acc e = .value r false ov ∧ TruncationOf r ov (signFactor s * m) := by
  by_cases hlead : acc.headD 0 = 0
  · have hlen' := length_shiftLeftOne hlen
    have hsig : (⟨s, store (shiftLeftOne acc), storeExp e⟩ : Register).significand = digitsNat acc / 10 := by
      rw [significand_store s hlen', digitsNat_shiftLeftOne hlead]
      omega
    have hulp : 100 * guardUnit e = 10 * guardUnit (expInc e) := by
      rw [expInc, guardUnit_succ]
      ring
    obtain ⟨hbelow, habove⟩ := cut_bounds (digitsNat acc) (k := 10) (by norm_num) (guardUnit_pos (expInc e))
    push_cast at hbelow habove
    refine ⟨_, _, mulNormalize_of_short hlead s e, ?_⟩
    refine truncationOf_of_bounds e (storeExp_toNat e) (expOverflow_iff e) ?_ ?_ ?_
    · rw [store_zero]
      exact shiftLeftOne_lead hlen hplaces hlead
    · rw [hsig, hulp]
      exact hbelow.trans hlow
    · rw [hsig, hulp]
      exact hhigh.trans_le habove
  · exact ⟨_, _, mulNormalize_of_lead hlead s e, truncationOf_store s hlen hlead (expInc e) hlow hhigh⟩

/-- R179. -/
theorem mul_truncates {x y : Register} (hx : x.mant[0] ≠ 0) (hy : y.mant[0] ≠ 0) :
    ∃ r ov, mul x y = .value r false ov ∧ TruncationOf r ov (x.value * y.value) := by
  obtain ⟨acc, hrun, hlen, hval⟩ := mulAccumulator_value x y
  have hplaces : 10 ^ 14 ≤ digitsNat acc := by
    rw [hval, Nat.le_div_iff_mul_le (by norm_num)]
    calc 10 ^ 14 * 10 ^ 12 = 10 ^ 13 * 10 ^ 13 := by norm_num
      _ ≤ x.significand * y.significand :=
        Nat.mul_le_mul (x.mant_zero_ne_zero_iff.mp hx) (y.mant_zero_ne_zero_iff.mp hy)
  obtain ⟨hlow, hhigh⟩ := mulAccumulator_bounds hval
  rw [mul_of_accumulator (regIsZero_of_lead hx) (regIsZero_of_lead hy) hrun, value_mul]
  exact mulNormalize_truncates _ _ hlen hplaces hlow hhigh

/-! ### The statements -/

/-- Settles O41, by the engine's first branch. -/
theorem mulByZeroIsTrueZero : Obligations.MulByZeroIsTrueZero := by
  intro rd rs1 rs2 s hzero
  rw [← regIsZero_iff, ← regIsZero_iff] at hzero
  rw [exec_mul, mul_of_zero_operand hzero, returned, State.finish_ov]
  rfl

/-- Settles O40, by the end of a multiplication. -/
theorem mulCompletes : Obligations.MulCompletes := by
  intro rd rs1 rs2 s
  obtain ⟨r, ov, hvalue⟩ := mul_value (s.readReg rs1) (s.readReg rs2)
  exact ⟨r, ov, hvalue, by rw [exec_mul, hvalue, State.finish_ov]⟩

/-- Settles O42, by the invariant of the rows: the accumulator is the product with the digits done, cut at its place. -/
theorem mulAccumulatorIsFloor : Obligations.MulAccumulatorIsFloor := mulAccumulator_value

/-- Settles O43: the accumulator bounds the exact magnitude, and normalization keeps the bounds. -/
theorem mulTruncates : Obligations.MulTruncates := fun _ _ => mul_truncates

/-- Settles O44, by the symmetry of the engine. -/
theorem mulCommutes : Obligations.MulCommutes := by
  intro rd a b s
  rw [exec_mul, exec_mul, mul_operands_comm]

/-- Settles O45: the accumulator is the operand one place to the right, and the left shift takes that back. -/
theorem mulByOneIsIdentity : Obligations.MulByOneIsIdentity := by
  intro x hx
  rw [← regIsZero_iff] at hx
  exact mul_by_one hx

end Sys2Proof.Machine
end

section
/-! SUPPORT. The divide engine branch by branch: the sentinel for a zero divisor, true zero for a zero dividend, INV where the
first quotient digit would pass 9, else the floor of the quotient, normalized as a product is; its quotients by one and by
itself, its accuracy, and the statements about DIV (44_div.md R190 to R200). -/

namespace Sys2Proof.Machine

/-! ### The branches -/

/-- R191. -/
theorem divide_by_zero {y : Register} (hy : regIsZero y = true) (x : Register) :
    divide x y = .value (divZeroSentinel (x.sign ^^ y.sign)) true false := by
  rw [divide, if_pos hy]

/-- R192. -/
theorem divide_zero_dividend {x y : Register} (hy : ¬ regIsZero y = true) (hx : regIsZero x = true) :
    divide x y = returned Register.trueZero := by
  rw [divide, if_neg hy, if_pos hx, returned]

/-- R193 to R197. -/
theorem divide_of_quotient {x y : Register} (hx : ¬ regIsZero x = true) (hy : ¬ regIsZero y = true) {q : Buf}
    (hrun : divQuotient x y = some q) : divide x y = divNormalize (x.sign ^^ y.sign) q (expSub x.exp y.exp) := by
  simp only [divide, if_neg hy, if_neg hx, hrun]

/-- R195. -/
theorem divide_of_no_quotient {x y : Register} (hx : ¬ regIsZero x = true) (hy : ¬ regIsZero y = true)
    (hrun : divQuotient x y = none) : divide x y = .inv := by
  simp only [divide, if_neg hy, if_neg hx, hrun]

/-- R176, R196: the two engines normalize alike; MUL counts the exact exponent from one place further down. -/
theorem divNormalize_eq_mulNormalize (s : Bool) (q : Buf) (e : Int) :
    divNormalize s q e = mulNormalize s q (expDec e) := by
  rw [divNormalize, mulNormalize, show expInc (expDec e) = e from sub_add_cancel e 1]

/-- R196: a full quotient stays, with its exact exponent. -/
theorem divNormalize_of_lead {q : Buf} (h : q.headD 0 ≠ 0) (s : Bool) (e : Int) :
    divNormalize s q e = computed s q e := by
  rw [divNormalize, if_neg h, computed]

/-- R86: a register is zero exactly where its significand is. -/
theorem regIsZero_iff_significand {r : Register} : regIsZero r = true ↔ r.significand = 0 := isZero_iff_digitsNat

/-! ### Completion and INV -/

/-- R196: normalization answers a Register, with DZ clear. -/
theorem divNormalize_value (s : Bool) (q : Buf) (e : Int) : ∃ r ov, divNormalize s q e = .value r false ov := by
  rw [divNormalize]
  split <;> exact ⟨_, _, rfl⟩

/-- R190, R198: the engine has a result wherever no quotient digit passes 9; DZ is the zero divisor's, without OV. -/
theorem divide_value {x y : Register} (h : y.significand = 0 ∨ x.significand < 10 * y.significand) :
    ∃ r dz ov, divide x y = .value r dz ov ∧ (dz = true → ov = false) := by
  by_cases hy : regIsZero y = true
  · exact ⟨_, _, _, divide_by_zero hy x, fun _ => rfl⟩
  by_cases hx : regIsZero x = true
  · exact ⟨_, _, _, divide_zero_dividend hy hx, fun _ => rfl⟩
  obtain ⟨q, hrun, -, -⟩ := divQuotient_value (h.resolve_left (regIsZero_iff_significand.not.mp hy))
  obtain ⟨r, ov, hvalue⟩ := divNormalize_value (x.sign ^^ y.sign) q (expSub x.exp y.exp)
  exact ⟨r, false, ov, by rw [divide_of_quotient hx hy hrun, hvalue], by simp⟩

/-- R195: a digit counted `q` so far passes 9 where the remaining number holds the rest of ten divisors; the count ends
there or with the rounds. -/
theorem quotientDigit_none {b : Buf} (n : Nat) {q : Digit} {a : Buf} (hlen : a.length = b.length)
    (hge : 10 * digitsNat b ≤ digitsNat a + q.val * digitsNat b) : quotientDigit b n q a = none := by
  induction n generalizing q a with
  | zero => rfl
  | succ n ih =>
    have hle : digitsNat b ≤ digitsNat a := by
      have hnine : q.val * digitsNat b ≤ 9 * digitsNat b := Nat.mul_le_mul_right _ (by omega)
      omega
    rw [quotientDigit, if_pos ((compareGe_iff hlen).mpr hle)]
    split
    next => rfl
    next =>
      obtain ⟨-, hsub⟩ := subBuf_of_le hlen hle
      have hnext : (q.val + 1) * digitsNat b = q.val * digitsNat b + digitsNat b := Nat.succ_mul _ _
      exact ih (by simp [length_subBuf, hlen]) (by show _ ≤ _ + (q.val + 1) * _; omega)

/-- R195: a dividend of ten divisors or more stops the long division at its first digit. -/
theorem divQuotient_none {x y : Register} (h : 10 * y.significand ≤ x.significand) : divQuotient x y = none := by
  have hdigit : quotientDigit (preShift y) 10 0 (preShift x) = none := by
    refine quotientDigit_none 10 (by simp) ?_
    rw [digitsNat_preShift, digitsNat_preShift]
    omega
  simp only [divQuotient, quotientDigits, hdigit]

theorem divide_inv {x y : Register} (hy : y.significand ≠ 0) (h : 10 * y.significand ≤ x.significand) :
    divide x y = .inv := by
  have hx : x.significand ≠ 0 := by omega
  exact divide_of_no_quotient (regIsZero_iff_significand.not.mpr hx) (regIsZero_iff_significand.not.mpr hy)
    (divQuotient_none h)

/-- R215: the end of a command that signals INV, in the fields of the next state. -/
theorem State.finish_inv (s : State) (rd : RegIndex) :
    s.finish rd .inv = { s with status := 0x08#8, running := none } := rfl

/-! ### Quotients by one and by itself -/

/-- The quotient buffer is the 16-digit one that stands for the quotient. -/
theorem divQuotient_eq_of_value {x y : Register} (hlt : x.significand < 10 * y.significand) {q : Buf}
    (hlen : q.length = 16) (hval : digitsNat q = x.significand * 10 ^ 15 / y.significand) :
    divQuotient x y = some q := by
  obtain ⟨q', hrun, hlen', hval'⟩ := divQuotient_value hlt
  rw [hrun, digitsNat_injective (hlen'.trans hlen.symm) (hval'.trans hval.symm)]

theorem expSub_bias (e : BitVec 8) : expSub e 128#8 = expInt e := by simp [expSub, expInt]

theorem expSub_self (e : BitVec 8) : expSub e e = expInt 128#8 := by simp [expSub, expInt]

/-- R199: the quotient by one, before normalization, is the loaded dividend. -/
theorem divQuotient_one (x : Register) : divQuotient x Register.one = some (load x) := by
  have hone := Register.one_significand
  have hlt := x.significand_lt
  refine divQuotient_eq_of_value (by omega) (length_load x) ?_
  rw [hone, digitsNat_load]
  omega

theorem divide_by_one {x : Register} (hx : x.mant[0] ≠ 0) :
    divide x Register.one = .value x false (decide (x.exp = 0#8)) := by
  have hlead : (load x).headD 0 ≠ 0 := (headD_ne_zero_iff (length_load x)).mpr (digitsNat_load_of_lead hx)
  calc divide x Register.one
      = divNormalize (x.sign ^^ false) (load x) (expSub x.exp 128#8) :=
        divide_of_quotient (regIsZero_of_lead hx) (regIsZero_of_lead Register.one_mant_zero) (divQuotient_one x)
    _ = computed x.sign (load x) (expInt x.exp) := by
        rw [divNormalize_of_lead hlead, Bool.xor_false, expSub_bias]
    _ = .value x false (decide (x.exp = 0#8)) := computed_load x

/-- R200: the quotient of equal significands, before normalization, is a leading 1. -/
theorem divQuotient_self {x : Register} (hx : x.significand ≠ 0) : divQuotient x x = some (load Register.one) := by
  refine divQuotient_eq_of_value (by omega) (length_load _) ?_
  rw [digitsNat_load, Register.one_significand, Nat.mul_div_cancel_left _ (Nat.pos_of_ne_zero hx)]
  norm_num

theorem divide_self {x : Register} (hx : ¬ regIsZero x = true) : divide x x = returned Register.one := by
  have hlead : (load Register.one).headD 0 ≠ 0 :=
    (headD_ne_zero_iff (length_load _)).mpr (digitsNat_load_of_lead Register.one_mant_zero)
  calc divide x x
      = divNormalize (x.sign ^^ x.sign) (load Register.one) (expSub x.exp x.exp) :=
        divide_of_quotient hx hx (divQuotient_self (regIsZero_iff_significand.not.mp hx))
    _ = computed Register.one.sign (load Register.one) (expInt Register.one.exp) := by
        rw [divNormalize_of_lead hlead, Bool.xor_self, expSub_self]
        rfl
    _ = returned Register.one := computed_load Register.one

/-! ### Accuracy -/

theorem signFactor_div (s t : Bool) : signFactor s / signFactor t = signFactor (s ^^ t) := by
  rw [signFactor_xor, div_eq_iff (signFactor_ne_zero t)]
  cases t <;> simp [signFactor]

theorem value_div (x y : Register) :
    x.value / y.value = signFactor (x.sign ^^ y.sign) * (x.magnitude / y.magnitude) := by
  rw [x.value_eq, y.value_eq, mul_div_mul_comm, signFactor_div]

/-- R93: the unit of a quotient of significands is 10^15 guard units at the quotient's exact exponent. -/
theorem ulp_div_ulp (x y : Register) : x.ulp / y.ulp = 10 ^ 15 * guardUnit (expSub x.exp y.exp) := by
  rw [Register.ulp, Register.ulp, guardUnit, ← zpow_natCast, ← zpow_sub₀ (by norm_num), ← zpow_add₀ (by norm_num)]
  congr 1
  simp only [expSub, expInt]
  push_cast
  ring

/-- R199: the quotient buffer is the exact magnitude, cut at its last digit, where the leading digit has index 0. -/
theorem divQuotient_bounds {x y : Register} {q : Buf} (hy : 0 < y.significand)
    (hval : digitsNat q = x.significand * 10 ^ 15 / y.significand) :
    digitsNat q * guardUnit (expSub x.exp y.exp) ≤ x.magnitude / y.magnitude ∧
      x.magnitude / y.magnitude < (digitsNat q + 1) * guardUnit (expSub x.exp y.exp) := by
  have hypos : (0 : ℚ) < y.significand := mod_cast hy
  have hshare : 0 < guardUnit (expSub x.exp y.exp) / y.significand := div_pos (guardUnit_pos _) hypos
  have hmag : x.magnitude / y.magnitude =
      ((x.significand * 10 ^ 15 : ℕ) : ℚ) * (guardUnit (expSub x.exp y.exp) / y.significand) := by
    rw [Register.magnitude, Register.magnitude, mul_div_mul_comm, ulp_div_ulp]
    push_cast
    ring
  obtain ⟨hbelow, habove⟩ := cut_bounds (x.significand * 10 ^ 15) hy hshare
  rw [← hval, mul_div_cancel₀ _ hypos.ne'] at hbelow habove
  rw [hmag]
  exact ⟨hbelow, by linarith⟩

/-- R196: a quotient of at least 15 places that holds the exact magnitude, cut, is normalized to the truncation. -/
theorem divNormalize_truncates (s : Bool) {q : Buf} (e : Int) {m : ℚ} (hlen : q.length = 16)
    (hplaces : 10 ^ 14 ≤ digitsNat q) (hlow : digitsNat q * guardUnit e ≤ m) (hhigh : m < (digitsNat q + 1) * guardUnit e) :
    ∃ r ov, divNormalize s q e = .value r false ov ∧ TruncationOf r ov (signFactor s * m) := by
  have hexp : expInc (expDec e) = e := sub_add_cancel e 1
  rw [divNormalize_eq_mulNormalize]
  exact mulNormalize_truncates s (expDec e) hlen hplaces (by rwa [hexp]) (by rwa [hexp])

/-- R199. Two significands of 14 places are less than a factor of ten apart, either way. -/
theorem divide_truncates {x y : Register} (hx : x.mant[0] ≠ 0) (hy : y.mant[0] ≠ 0) :
    ∃ r ov, divide x y = .value r false ov ∧ TruncationOf r ov (x.value / y.value) := by
  have hX := x.mant_zero_ne_zero_iff.mp hx
  have hY := y.mant_zero_ne_zero_iff.mp hy
  have hXlt := x.significand_lt
  have hYlt := y.significand_lt
  obtain ⟨q, hrun, hlen, hval⟩ := divQuotient_value (x := x) (y := y) (by omega)
  have hplaces : 10 ^ 14 ≤ digitsNat q := by
    rw [hval, Nat.le_div_iff_mul_le (by omega)]
    omega
  obtain ⟨hlow, hhigh⟩ := divQuotient_bounds (by omega) hval
  rw [divide_of_quotient (regIsZero_of_lead hx) (regIsZero_of_lead hy) hrun, value_div]
  exact divNormalize_truncates _ _ hlen hplaces hlow hhigh

/-! ### The statements -/

/-- Settles O48, by the engine's first two branches. -/
theorem divZeroOperands : Obligations.DivZeroOperands := by
  intro rd rs1 rs2 s
  rw [← regIsZero_iff, ← regIsZero_iff]
  constructor
  · intro hy
    rw [exec_div, divide_by_zero hy, State.finish_value]
    rfl
  · intro hy hx
    rw [exec_div, divide_zero_dividend hy hx, returned, State.finish_ov]
    rfl

/-- Settles O46, by the end of a division. -/
theorem divCompletes : Obligations.DivCompletes := by
  intro rd rs1 rs2 s h
  obtain ⟨r, dz, ov, hvalue, hflags⟩ := divide_value h
  refine ⟨r, dz, ov, hvalue, hflags, ?_⟩
  rw [exec_div, hvalue, State.finish_value, statusOf]

/-- Settles O47: the first quotient digit would pass 9. -/
theorem divQuotientDigitOverNineSignalsInv : Obligations.DivQuotientDigitOverNineSignalsInv := by
  intro rd rs1 rs2 s hy h
  rw [exec_div, divide_inv hy h, State.finish_inv]

/-- Settles O49, by the invariant of the long division: the digits done are the quotient's leading ones. -/
theorem divQuotientIsFloor : Obligations.DivQuotientIsFloor := fun _ _ _ => divQuotient_value

/-- Settles O50: the quotient buffer bounds the exact magnitude, and normalization keeps the bounds. -/
theorem divTruncates : Obligations.DivTruncates := fun _ _ => divide_truncates

/-- Settles O51: the quotient buffer is the loaded dividend, and has its leading digit. -/
theorem divByOneIsIdentity : Obligations.DivByOneIsIdentity := fun _ => divide_by_one

/-- Settles O52: the sentinel of a zero register has sign 0, since its two signs are one; else the quotient is one. -/
theorem divOfItself : Obligations.DivOfItself := by
  intro rd r s
  split
  next hzero =>
    rw [← regIsZero_iff] at hzero
    rw [exec_div, divide_by_zero hzero, Bool.xor_self, State.finish_value]
    rfl
  next hzero =>
    rw [← regIsZero_iff] at hzero
    rw [exec_div, divide_self hzero, returned, State.finish_ov]
    rfl

end Sys2Proof.Machine
end

section
/-! SUPPORT. The values of STATUS that go with the two endings of a command and with each engine's answer, and the
statements about every command (60_exceptions.md R211, R215, R217). -/

namespace Sys2Proof.Machine

/-! ### What each ending leaves in STATUS -/

/-- R211: a command that wrote its result signals neither PE nor INV. -/
theorem statusOf_not_signalled (dz ov : Bool) : ¬ (statusOf dz ov = 0x04#8 ∨ statusOf dz ov = 0x08#8) := by
  revert dz ov
  decide

theorem statusOf_ov_mem (ov : Bool) : statusOf false ov ∈ [0x00#8, 0x02#8] := by
  revert ov
  decide

/-- R217: where DZ excludes OV, at most one of the two stands in STATUS. -/
theorem statusOf_mem_of_exclusive {dz ov : Bool} (h : dz = true → ov = false) :
    statusOf dz ov ∈ [0x00#8, 0x01#8, 0x02#8] := by
  revert dz ov
  decide

theorem State.finish_value_status (s : State) (rd : RegIndex) (r : Register) (dz ov : Bool) :
    (s.finish rd (.value r dz ov)).status = statusOf dz ov := rfl

theorem State.finish_inv_status (s : State) (rd : RegIndex) : (s.finish rd .inv).status = statusINV := rfl

/-- R217: a command whose only flag is OV leaves 0x00 or 0x02. -/
theorem State.finish_ov_status_mem (s : State) (rd : RegIndex) (r : Register) (ov : Bool) :
    (s.finish rd (.value r false ov)).status ∈ [0x00#8, 0x02#8] := by
  rw [State.finish_value_status]
  exact statusOf_ov_mem ov

theorem State.finish_addsub_status_mem (s : State) (rd : RegIndex) (x y : Register) (sub : Bool) :
    (s.finish rd (addsub x y sub)).status ∈ [0x00#8, 0x02#8] := by
  obtain ⟨r, ov, hvalue⟩ := addsub_value x y sub
  rw [hvalue]
  exact s.finish_ov_status_mem rd r ov

theorem State.finish_mul_status_mem (s : State) (rd : RegIndex) (x y : Register) :
    (s.finish rd (mul x y)).status ∈ [0x00#8, 0x02#8] := by
  obtain ⟨r, ov, hvalue⟩ := mul_value x y
  rw [hvalue]
  exact s.finish_ov_status_mem rd r ov

/-- R217: on all registers, division answers a Register with DZ and OV not both, or INV. -/
theorem divide_value_or_inv (x y : Register) :
    (∃ r dz ov, divide x y = .value r dz ov ∧ (dz = true → ov = false)) ∨ divide x y = .inv := by
  by_cases h : y.significand = 0 ∨ x.significand < 10 * y.significand
  · exact .inl (divide_value h)
  · rw [not_or, not_lt] at h
    obtain ⟨hy, hover⟩ := h
    exact .inr (divide_inv hy hover)

theorem State.finish_divide_status_mem (s : State) (rd : RegIndex) (x y : Register) :
    (s.finish rd (divide x y)).status ∈ [0x00#8, 0x01#8, 0x02#8, 0x08#8] := by
  rcases divide_value_or_inv x y with ⟨r, dz, ov, hvalue, hflags⟩ | hinv
  · rw [hvalue, State.finish_value_status]
    exact List.mem_append_left [0x08#8] (statusOf_mem_of_exclusive hflags)
  · rw [hinv, State.finish_inv_status]
    decide

/-- R110, R217: PARSE leaves 0x00 with its result, and PE alone without one. -/
theorem execParse_status_mem {rd : RegIndex} {s t : State} (h : execParse rd s = .next t) :
    t.status ∈ [0x00#8, 0x04#8] := by
  rcases execParse_cases rd s with ⟨-, heq⟩ | ⟨-, heq⟩ <;> obtain rfl := Host.Outcome.next.inj (heq.symm.trans h)
  · rw [State.complete_status]
    decide
  · rw [State.signalOnly_status]
    decide

/-! ### The statements -/

/-- Settles O54, by the two endings of a command: its result in its destination, whose STATUS is neither PE nor INV, or
STATUS alone. -/
theorem commandFrame : Obligations.CommandFrame := by
  intro i s t h
  rcases exec_cases i s with ⟨r, dz, ov, heq⟩ | ⟨st, -, heq⟩ <;> obtain rfl := Host.Outcome.next.inj (heq.symm.trans h)
  · exact ⟨fun k hk => s.readReg_complete_other _ k r _ hk, fun hst => absurd hst (statusOf_not_signalled dz ov),
      fun _ => rfl, rfl, rfl, rfl, rfl, rfl, rfl⟩
  · exact ⟨fun k _ => s.readReg_signalOnly st k, fun _ => s.signalOnly_dr st, fun _ => rfl, rfl, rfl, rfl, rfl, rfl, rfl⟩

/-- Settles O55: PARSE by its two cases, each arithmetic command by what its engine answers on all registers. -/
theorem commandStatusValues : Obligations.CommandStatusValues := by
  intro s t rd rs1 rs2
  rw [exec_add, exec_sub, exec_mul, exec_div]
  simp only [Host.Outcome.next.injEq]
  refine ⟨execParse_status_mem, ?_, ?_, ?_, ?_⟩ <;> rintro rfl
  · exact s.finish_addsub_status_mem rd _ _ false
  · exact s.finish_addsub_status_mem rd _ _ true
  · exact s.finish_mul_status_mem rd _ _
  · exact s.finish_divide_status_mem rd _ _

end Sys2Proof.Machine
end

section
/-! SUPPORT. What `RESET()` leaves, and what the operations held before it answer (70_reset_and_hazards.md R230, R231;
20_memory.md R50, R51). -/

namespace Sys2Proof.Machine

/-! ### The block after a reset -/

theorem State.resetBlock_afterReset (s : State) : s.resetBlock.AfterReset :=
  ⟨s.readReg_resetBlock, s.resetBlock_status, fun _ => rfl, s.resetBlock_running⟩

/-- R231, R51: a `RESET()` that arrives in a waiting step takes effect after what was held. -/
theorem State.waitCycle_resets {s : State} (c : CommandWord) (n : Nat) {rest : List HostOp}
    (hs : s.script = .reset :: rest) :
    s.waitCycle c n = (State.releaseHeld { s with running := some ⟨c, n⟩, script := rest }).resetBlock :=
  s.waitCycle_cons c n hs

/-! ### What the operations held answer -/

/-- An operation leaves states that agree in agreement: an ISSUE changes only bookkeeping, and every other operation is
its own atomic transition. -/
theorem State.Agrees.perform {answers : Prop} {s u : State} (h : s.Agrees answers u) (op : HostOp) :
    (s.perform op).Agrees answers (u.perform op) := by
  cases op with
  | issue c => exact ⟨h.dr, h.status, h.ibuf, h.replies⟩
  | reset => exact h.performAtomically .reset
  | writeIbuf k b => exact h.performAtomically (.writeIbuf k b)
  | readIbuf k => exact h.performAtomically (.readIbuf k)
  | readReg r => exact h.performAtomically (.readReg r)
  | readStatus => exact h.performAtomically .readStatus

theorem State.Agrees.foldl_perform {answers : Prop} {s u : State} (h : s.Agrees answers u) (ops : List HostOp) :
    (ops.foldl State.perform s).Agrees answers (ops.foldl State.perform u) := by
  induction ops generalizing s u with
  | nil => exact h
  | cons op ops ih => exact ih (h.perform op)

/-- What the held operations answer depends neither on the command in progress nor on what the host does later. -/
theorem State.releaseHeld_replies (s : State) (running : Option Running) (script : List HostOp) :
    (State.releaseHeld { s with running, script }).replies =
      (s.held.foldl State.perform { s with held := [] }).replies :=
  have hagree : State.Agrees True { s with running, script, held := [] } { s with held := [] } :=
    State.agrees_bookkeeping { s with held := [] } running [] script s.issued
  (hagree.foldl_perform s.held).replies trivial

/-! ### The statements -/

/-- Settles O2: the step serves the `RESET()`. -/
theorem resetOperationRestoresBlock : Obligations.ResetOperationRestoresBlock :=
  fun _ _ hr hh hs => ⟨_, step_serves_script hr hh hs, State.resetBlock_afterReset _, rfl⟩

/-- Settles O3: the waiting step resets the block after what was held took effect, or holds the operation. -/
theorem resetEndsRunningCommand : Obligations.ResetEndsRunningCommand := by
  intro s c n op rest hr hs
  refine ⟨_, step_of_waiting hr, ?_⟩
  by_cases hop : op = .reset
  · subst hop
    rw [if_pos rfl, State.waitCycle_resets c n hs]
    exact ⟨State.releaseHeld_script _, State.resetBlock_afterReset _, State.releaseHeld_held _,
      s.releaseHeld_replies _ _⟩
  · rw [if_neg hop, State.waitCycle_holds c n hs hop]
    exact ⟨rfl, ⟨n, rfl⟩, rfl⟩

end Sys2Proof.Machine
end
